-- ==== Sys2Proof/Word.lean ====
section
/-! DEFINITION. The widths of the engine's values (spec/00_scope.md rule R7): byte, word, doubleword. Every value is unsigned. -/

namespace Sys2Proof

/-- A byte, 8 bits (R7). -/
abbrev Byte := BitVec 8

/-- A word, 32 bits (R7): an accumulator, a working variable, a block word, a command word. -/
abbrev Word := BitVec 32

/-- A doubleword, 64 bits (R7): `LEN`, `OFF`, `VAL`, `NBLK`, the length trailer. -/
abbrev DWord := BitVec 64

end Sys2Proof
end

