-- ==== Sys2Proof/Syntax.lean ====
section
/-! DEFINITION. The commands of the engine: one constructor per legal command word (spec/30_encoding.md R96, spec/opcode_table.json), and the fields a command word is made of (R91 to R94). -/

namespace Sys2Proof

/-- The three byte spaces a command can address (R60, R94). -/
inductive Space where
  | msg
  | tail
  | dig
deriving DecidableEq, Repr

/-- The two byte spaces inside the engine, the only ones `MemWrite` is applied to (R70). -/
inductive Buffer where
  | tail
  | dig
deriving DecidableEq, Repr

/-- The ten opcodes of R93. -/
inductive Opcode where
  | get32le
  | get32be
  | put32le
  | put64le
  | put64be
  | init
  | plan
  | block
  | digest
  | hash
deriving DecidableEq, Repr

/-- A command. The 18 constructors are the 18 rows of spec/opcode_table.json; every operand is in `OFF`, `VAL` and `LEN` (R95). -/
inductive Instr where
  | get32leMsg
  | get32leTail
  | get32leDig
  | get32beMsg
  | get32beTail
  | get32beDig
  | put32leTail
  | put32leDig
  | put64leTail
  | put64leDig
  | put64beTail
  | put64beDig
  | init
  | plan
  | blockMsg
  | blockTail
  | digest
  | hash
deriving DecidableEq, Repr

/-- Why a command word is illegal: the six clauses of R97. -/
inductive IllegalWord where
  /-- `w[31:6] != 0` -/
  | reservedBits
  /-- `w[3:0]` is 0x0 or 0xB to 0xF -/
  | reservedOpcode
  /-- `w[5:4] = 3` -/
  | reservedBuffer
  /-- INIT, PLAN, DIGEST or HASH with `w[5:4] != 0` -/
  | bufferNotZero
  /-- a put that names `MSG` -/
  | putNamesMsg
  /-- BLOCK that names `DIG` -/
  | blockNamesDig
deriving DecidableEq, Repr

end Sys2Proof
end

