-- ==== Sys2Proof/WellFormed.lean ====
section
/-! DEFINITION. Which commands are well formed: the six clauses of R97 on a command word, the table of R96 on an opcode and a buffer, and the check of an instruction. -/

namespace Sys2Proof

/-- `w[31:6]`, the field ZERO (R91, R92). -/
def zeroField (w : Word) : BitVec 26 := w.extractLsb' 6 26

/-- `w[5:4]`, the field BUF or BUFZ (R91, R92, R94). -/
def bufField (w : Word) : BitVec 2 := w.extractLsb' 4 2

/-- `w[3:0]`, the field OP (R93). -/
def opField (w : Word) : BitVec 4 := w.extractLsb' 0 4

/-- The clause of R97 that a word breaks, none for a legal word. -/
def illegalReason (w : Word) : Option IllegalWord :=
  if zeroField w != 0 then some .reservedBits
  else if opField w == 0x0 || 0xB ≤ opField w then some .reservedOpcode
  else if bufField w == 3 then some .reservedBuffer
  else if (opField w == 0x6 || opField w == 0x7 || opField w == 0x9 || opField w == 0xA) && bufField w != 0 then
    some .bufferNotZero
  else if (opField w == 0x3 || opField w == 0x4 || opField w == 0x5) && bufField w == 0 then some .putNamesMsg
  else if opField w == 0x8 && bufField w == 2 then some .blockNamesDig
  else none

/-- Which buffers each command may name: the table of R96. `none` is "no buffer". -/
def Opcode.mayName : Opcode → Option Space → Bool
  | .get32le, some _ => true
  | .get32be, some _ => true
  | .put32le, some b => b != .msg
  | .put64le, some b => b != .msg
  | .put64be, some b => b != .msg
  | .block, some b => b != .dig
  | .init, none => true
  | .plan, none => true
  | .digest, none => true
  | .hash, none => true
  | _, _ => false

/-- The opcode of a command (R93). -/
def Instr.opcode : Instr → Opcode
  | .get32leMsg | .get32leTail | .get32leDig => .get32le
  | .get32beMsg | .get32beTail | .get32beDig => .get32be
  | .put32leTail | .put32leDig => .put32le
  | .put64leTail | .put64leDig => .put64le
  | .put64beTail | .put64beDig => .put64be
  | .init => .init
  | .plan => .plan
  | .blockMsg | .blockTail => .block
  | .digest => .digest
  | .hash => .hash

/-- The byte space a command names, if it names one (R94). -/
def Instr.space : Instr → Option Space
  | .get32leMsg | .get32beMsg | .blockMsg => some .msg
  | .get32leTail | .get32beTail | .put32leTail | .put64leTail | .put64beTail | .blockTail => some .tail
  | .get32leDig | .get32beDig | .put32leDig | .put64leDig | .put64beDig => some .dig
  | .init | .plan | .digest | .hash => none

/-- A command is well formed when its opcode may name its buffer (R96). -/
def Instr.wellFormed (i : Instr) : Bool := i.opcode.mayName i.space

end Sys2Proof
end

