-- ==== Sys2Proof/Decode.lean ====
section
/-! DEFINITION. `decode`, total on 32-bit words (R99), rejecting by the clause of R97; `encode`, the table of R96; and the entry the host reads the opcode table through. -/

namespace Sys2Proof

/-- `decode(w)` of R99, arm by arm. -/
def decode (w : Word) : Except IllegalWord Instr :=
  if zeroField w != 0 then .error .reservedBits
  else
    match (opField w).toNat, (bufField w).toNat with
    | 0x1, 0 => .ok .get32leMsg
    | 0x1, 1 => .ok .get32leTail
    | 0x1, 2 => .ok .get32leDig
    | 0x1, _ => .error .reservedBuffer
    | 0x2, 0 => .ok .get32beMsg
    | 0x2, 1 => .ok .get32beTail
    | 0x2, 2 => .ok .get32beDig
    | 0x2, _ => .error .reservedBuffer
    | 0x3, 0 => .error .putNamesMsg
    | 0x3, 1 => .ok .put32leTail
    | 0x3, 2 => .ok .put32leDig
    | 0x3, _ => .error .reservedBuffer
    | 0x4, 0 => .error .putNamesMsg
    | 0x4, 1 => .ok .put64leTail
    | 0x4, 2 => .ok .put64leDig
    | 0x4, _ => .error .reservedBuffer
    | 0x5, 0 => .error .putNamesMsg
    | 0x5, 1 => .ok .put64beTail
    | 0x5, 2 => .ok .put64beDig
    | 0x5, _ => .error .reservedBuffer
    | 0x6, 0 => .ok .init
    | 0x6, 3 => .error .reservedBuffer
    | 0x6, _ => .error .bufferNotZero
    | 0x7, 0 => .ok .plan
    | 0x7, 3 => .error .reservedBuffer
    | 0x7, _ => .error .bufferNotZero
    | 0x8, 0 => .ok .blockMsg
    | 0x8, 1 => .ok .blockTail
    | 0x8, 2 => .error .blockNamesDig
    | 0x8, _ => .error .reservedBuffer
    | 0x9, 0 => .ok .digest
    | 0x9, 3 => .error .reservedBuffer
    | 0x9, _ => .error .bufferNotZero
    | 0xA, 0 => .ok .hash
    | 0xA, 3 => .error .reservedBuffer
    | 0xA, _ => .error .bufferNotZero
    | _, _ => .error .reservedOpcode

/-- The command word of a command: the table of R96. -/
def encode : Instr → Word
  | .get32leMsg => 0x00000001
  | .get32leTail => 0x00000011
  | .get32leDig => 0x00000021
  | .get32beMsg => 0x00000002
  | .get32beTail => 0x00000012
  | .get32beDig => 0x00000022
  | .put32leTail => 0x00000013
  | .put32leDig => 0x00000023
  | .put64leTail => 0x00000014
  | .put64leDig => 0x00000024
  | .put64beTail => 0x00000015
  | .put64beDig => 0x00000025
  | .init => 0x00000006
  | .plan => 0x00000007
  | .blockMsg => 0x00000008
  | .blockTail => 0x00000018
  | .digest => 0x00000009
  | .hash => 0x0000000A

/-- The command word whose bits, numbered as spec/opcode_table.json numbers them, are `w`; the bits above `nbits` are 0. -/
def tableWord (nbits w : Nat) : Word := BitVec.ofNat 32 (w % 2 ^ nbits)

/-- The instruction `decode` reads from a command word given as the opcode table gives it. -/
def decodeTableWord (nbits w : Nat) : Option Instr :=
  match decode (tableWord nbits w) with
  | .ok i => some i
  | .error _ => none

end Sys2Proof
end

