-- ==== Sys2Proof/Config.lean ====
section
/-! DEFINITION. What no rule of the spec fixes: the free values. Each is a constant with no body, so nothing can be proved of what it is. -/

namespace Sys2Proof

/-- The free value of register number `slot` at draw number `draw` (spec/93_implementation_defined.md V1 to V4; log 4).
A narrower register takes its low bits, which are as free. -/
opaque Config.freeBits (draw slot : Nat) : DWord

/-- Which of the values that the message byte at offset `off` has had in the window of the command in flight the engine reads
(spec/70_reset_and_hazards.md R256, V5; log 10), at draw number `draw`. -/
opaque Config.freePick (draw off : Nat) : Nat

end Sys2Proof
end

