-- ==== Sys2Proof/Machine/State.lean ====
section
/-! DEFINITION. The state of the engine as plain data (spec/10_state.md), the host's acts, and the state after reset (R48). -/

namespace Sys2Proof.Machine

/-- A byte space: the bytes that are not 0x00, by rising offset (`Memory.wf` of Ops.lean). An unlisted offset reads 0x00, which is what
every byte of `TAIL` and `DIG` holds after reset (R48); for `MSG` it is a way of writing the bytes down (log 9). -/
abbrev Memory := List Host.Cell

/-- The hash state `H[0..3]` (R21). -/
structure HashState where
  h0 : Word
  h1 : Word
  h2 : Word
  h3 : Word
deriving DecidableEq, Repr

/-- The working registers `A`, `B`, `C`, `D` (R38). -/
structure Work where
  a : Word
  b : Word
  c : Word
  d : Word
deriving DecidableEq, Repr

/-- The fields of `STATUS` (R31 to R35); its other bits read 0. `Status.word` of Flags.lean is the register. -/
structure Status where
  busy : Bool
  done : Bool
  ovr : Bool
  err : BitVec 4
deriving DecidableEq, Repr

/-- The fields of `PLANINFO` (R30); its other bits read 0. `PlanInfo.word` of Flags.lean is the register. -/
structure PlanInfo where
  lm64 : BitVec 6
  room : BitVec 7
  zeros : BitVec 6
  chunks : BitVec 2
deriving DecidableEq, Repr

/-- The phases of the sequencer (R40). -/
inductive Phase where
  | idle
  | plan
  | init
  | body
  | tail1
  | tail2
  | format
  | codec
deriving DecidableEq, Repr

/-- The sequencer position `SEQ` (R40): the phase, the body block being compressed, the round.
`BLK` and `RND` are 0 in every phase to which R40 and R201 give no such index (log 8). -/
structure Seq where
  phase : Phase
  blk : Nat
  rnd : Nat
deriving DecidableEq, Repr

/-- The message space: its bytes and `MSG_EXTENT`, how many offsets from 0 hold a byte (R41, R6). -/
structure Message where
  cells : Memory
  extent : Nat
deriving DecidableEq, Repr

/-- One act of the host or of the platform (R10, R20, R41, R256), or the host standing back for one engine step (log 1). -/
inductive HostAction where
  /-- `HostWrite(reg, v)`, `reg` a register number of R45; a 32-bit register takes the low 32 bits of `v` (log 12). -/
  | write (reg : Nat) (v : DWord)
  /-- `HostRead(reg)`; the value read is kept in `State.lastRead` (log 13). -/
  | read (reg : Nat)
  /-- `Reset` (R250). -/
  | reset
  /-- The owner of the message changes the byte at one offset of it (R256). -/
  | storeMsg (off : Nat) (b : Byte)
  /-- The platform binds another message to `MSG` (R41, R251): `extent` bytes, the listed cells and 0x00 elsewhere. -/
  | bindMsg (extent : Nat) (cells : List Host.Cell)
  /-- The host does nothing and the engine has the step (the `WAIT` of R106). -/
  | wait
deriving DecidableEq, Repr

/-- The state. The first group is the spec's, the last the model's own (logs 1, 4, 10, 13). -/
structure State where
  /-- `H[0..3]` (R21) -/
  hash : HashState
  /-- `LEN` (R24) -/
  len : DWord
  /-- `OFF` (R25) -/
  off : DWord
  /-- `VAL` (R26) -/
  val : DWord
  /-- `TAIL`, offsets 0 to 127 (R27) -/
  tail : Memory
  /-- `DIG`, offsets 0 to 15 (R28) -/
  dig : Memory
  /-- `NBLK` (R29) -/
  nblk : DWord
  /-- `PLANINFO` (R30) -/
  planinfo : PlanInfo
  /-- `STATUS` (R31) -/
  status : Status
  /-- `ERRINFO` (R36) -/
  errinfo : Word
  /-- `PEND`, the accepted command word (R37) -/
  pend : Word
  /-- `A`, `B`, `C`, `D` (R38) -/
  work : Work
  /-- `W[0..15]` (R39) -/
  words : Vector Word 16
  /-- `SEQ` (R40) -/
  seq : Seq
  /-- `MSG` and `MSG_EXTENT` (R41) -/
  msg : Message
  /-- The model's own: what `MSG` was before each change of it since the command in flight was accepted, newest first (R256, log 10). -/
  msgOld : List Message
  /-- The model's own: the acts of the host still to come, the next one first (log 1). -/
  inbox : List HostAction
  /-- The model's own: number and value of the last register the host read (log 13). -/
  lastRead : Option (Nat × DWord)
  /-- The model's own: how many draws of free values there have been (log 4). -/
  draws : Nat
deriving DecidableEq, Repr

/-- Reasons for a step to stop the machine: there are none. Every fault of the spec (ILLEGAL_CMD, BOUNDS, MSG_FAULT) is an entry that R226
describes, so the step that takes it answers the next state (`raiseFault`, `raiseMsgFault` of Ops.lean; log 18). Safe: nothing is left out. -/
inductive Fault where
deriving DecidableEq, Repr

/-- Reasons for a step to have no meaning. -/
inductive Refusal where
  /-- Raised by no arm of `exec`: every command of the opcode table has its meaning. Safe: a refused step proves nothing. -/
  | notModelled (mnemonic : String)
deriving DecidableEq, Repr

/-- What a meaning and a step answer. -/
abbrev Result := Host.Outcome State Fault Refusal

/-- The initial constants of the hash state (R22). -/
def HashState.iv : HashState := ⟨0x67452301, 0xEFCDAB89, 0x98BADCFE, 0x10325476⟩

/-- The state right after reset (R48, R250). `PEND`, `A` to `D` and `W` have no value there in the spec and hold 0 here (log 5); the message
space is the environment's and is empty here (log 6). -/
def State.reset : State where
  hash := HashState.iv
  len := 0
  off := 0
  val := 0
  tail := []
  dig := []
  nblk := 0
  planinfo := ⟨0, 0, 0, 0⟩
  status := ⟨false, false, false, 0⟩
  errinfo := 0
  pend := 0
  work := ⟨0, 0, 0, 0⟩
  words := Vector.replicate 16 0
  seq := ⟨.idle, 0, 0⟩
  msg := ⟨[], 0⟩
  msgOld := []
  inbox := []
  lastRead := none
  draws := 0

end Sys2Proof.Machine
end

