-- ==== Sys2Proof/Machine/Ops.lean ====
section
/-! DEFINITION. The named operations over the byte spaces (spec/20_memory.md R69, R70), the free values, the completion of a command (R105) and fault entry (R226). -/

namespace Sys2Proof.Machine

/-- The byte at an offset; 0x00 where none is listed (log 9). -/
def Memory.read : Memory → Nat → Byte
  | [], _ => 0
  | (a, b) :: m, x => if a = x then b else Memory.read m x

/-- The memory without the entry of one offset. -/
def Memory.erase : Memory → Nat → Memory
  | [], _ => []
  | (a, b) :: m, x => if a = x then Memory.erase m x else (a, b) :: Memory.erase m x

/-- The memory with one entry put where its offset belongs. -/
def Memory.insert : Memory → Nat → Byte → Memory
  | [], x, v => [(x, v)]
  | (a, b) :: m, x, v => if x < a then (x, v) :: (a, b) :: m else (a, b) :: Memory.insert m x v

/-- The memory with the byte `v` at offset `x`; 0x00 is what an unlisted offset reads as, so it is not listed. -/
def Memory.write (m : Memory) (x : Nat) (v : Byte) : Memory :=
  if v = 0 then Memory.erase m x else Memory.insert (Memory.erase m x) x v

/-- The memory with a list of bytes at consecutive offsets, lowest first (R9). -/
def Memory.writeBytes : Memory → Nat → List Byte → Memory
  | m, _, [] => m
  | m, x, b :: bs => Memory.writeBytes (Memory.write m x b) (x + 1) bs

/-- Offsets strictly rise from `lo` on and no listed byte is 0x00. -/
def Memory.wfFrom : Nat → Memory → Bool
  | _, [] => true
  | lo, (a, b) :: m => decide (lo ≤ a) && b != 0 && Memory.wfFrom (a + 1) m

/-- The canonical form: offsets strictly rising, no entry equal to what an unlisted offset reads as. -/
def Memory.wf (m : Memory) : Bool := Memory.wfFrom 0 m

/-- Every listed offset is below `n`. -/
def Memory.below (n : Nat) (m : Memory) : Bool := m.all fun c => decide (c.1 < n)

/-- The memory that holds the given cells, a later one winning. -/
def Memory.ofCells (cells : List Host.Cell) : Memory := cells.foldl (fun m c => Memory.write m c.1 c.2) []

/-- The byte of a message at an offset; none at or beyond its extent (R41). -/
def Message.byteAt (m : Message) (off : Nat) : Option Byte := if off < m.extent then some (Memory.read m.cells off) else none

/-- The version of the message whose byte at `off` the command in flight reads: the message as it stands, unless it was changed since the
command was accepted; then any of its versions since, chosen byte by byte by a free value (R256, V5; log 10). -/
def msgVersion (s : State) (off : Nat) : Message :=
  match s.msgOld with
  | [] => s.msg
  | old => (s.msg :: old).getD (Config.freePick s.draws off % (old.length + 1)) s.msg

/-- The byte the engine reads at an offset of a byte space; none where the read port of `MSG` reports an error (R69). `TAIL` and `DIG` are
asked below their sizes only (R75). -/
def memByte (s : State) : Space → Nat → Option Byte
  | .msg, off => Message.byteAt (msgVersion s off) off
  | .tail, off => some (Memory.read s.tail off)
  | .dig, off => some (Memory.read s.dig off)

/-- `MemRead(S, off, n)` (R69): the bytes at `off` to `off + n - 1`, none for the read port's error. -/
def memRead (s : State) (S : Space) : Nat → Nat → Option (List Byte)
  | _, 0 => some []
  | off, n + 1 =>
    match memByte s S off with
    | none => none
    | some b =>
      match memRead s S (off + 1) n with
      | none => none
      | some bs => some (b :: bs)

/-- `MemWrite(S, off, n, bytes)` with `n` the number of bytes (R70). -/
def memWrite (s : State) (B : Buffer) (off : Nat) (bytes : List Byte) : State :=
  match B with
  | .tail => { s with tail := Memory.writeBytes s.tail off bytes }
  | .dig => { s with dig := Memory.writeBytes s.dig off bytes }

/-- A byte space inside the engine as a byte space. -/
def bufferSpace : Buffer → Space
  | .tail => .tail
  | .dig => .dig

/-- A free 32-bit value (log 4). -/
def freeWord (draw slot : Nat) : Word := (Config.freeBits draw slot).setWidth 32

/-- `n` free bytes, those of the slots from `slot` on (log 4). -/
def freeBytes (draw : Nat) : Nat → Nat → List Byte
  | _, 0 => []
  | slot, n + 1 => (Config.freeBits draw slot).setWidth 8 :: freeBytes draw (slot + 1) n

/-- A free hash state; the slots are the register numbers of R45 (log 4). -/
def freeHash (draw : Nat) : HashState := ⟨freeWord draw 0x08, freeWord draw 0x09, freeWord draw 0x0A, freeWord draw 0x0B⟩

/-- Free working registers; the slots from 0x20 on number no register of R45 (R38, log 4). -/
def freeWork (draw : Nat) : Work := ⟨freeWord draw 0x20, freeWord draw 0x21, freeWord draw 0x22, freeWord draw 0x23⟩

/-- Free block words (R39, log 4). -/
def freeWords (draw : Nat) : Vector Word 16 :=
  #v[freeWord draw 0x30, freeWord draw 0x31, freeWord draw 0x32, freeWord draw 0x33,
     freeWord draw 0x34, freeWord draw 0x35, freeWord draw 0x36, freeWord draw 0x37,
     freeWord draw 0x38, freeWord draw 0x39, freeWord draw 0x3A, freeWord draw 0x3B,
     freeWord draw 0x3C, freeWord draw 0x3D, freeWord draw 0x3E, freeWord draw 0x3F]

/-- A free `PLANINFO`: its fields are free, its reserved bits read 0 as always (R47, V11; log 11). -/
def freePlanInfo (draw : Nat) : PlanInfo :=
  ⟨(freeWord draw 0x07).extractLsb' 0 6, (freeWord draw 0x07).extractLsb' 8 7,
   (freeWord draw 0x07).extractLsb' 16 6, (freeWord draw 0x07).extractLsb' 24 2⟩

/-- The internal registers `A` to `D`, `W` and `PEND` after a command or a reset: unspecified (R37, R38, R39, V3, V4; log 7). -/
def scrubInternal (s : State) : State :=
  { s with
    pend := freeWord s.draws 0x24
    work := freeWork s.draws
    words := freeWords s.draws
    draws := s.draws + 1 }

/-- The end of a command that completes (R105): `BUSY <- 0`, `DONE <- 1`, `SEQ <- IDLE`, the internal registers unspecified. -/
def finish (s : State) : State :=
  scrubInternal
    { s with
      status := { s.status with busy := false, done := true }
      seq := ⟨.idle, 0, 0⟩
      msgOld := [] }

/-- The codes of `STATUS.ERR` (R35, R221). -/
abbrev errIllegalCmd : BitVec 4 := 1
abbrev errBounds : BitVec 4 := 2
abbrev errMsgFault : BitVec 4 := 3

/-- Fault entry, the engine's one way of taking an exception (R226): the code and the command word are recorded, the engine is no longer busy
and nothing else changes. There is no handler, no mode and no saved position, and nothing returns from it but `Reset` (R227). -/
def raiseFault (code : BitVec 4) (s : State) : State :=
  { s with
    status := { s.status with busy := false, done := false, err := code }
    errinfo := s.pend
    seq := ⟨.idle, 0, 0⟩
    msgOld := [] }

/-- The sets of registers and bytes a command that can end in MSG_FAULT may write (R224). -/
inductive WriteSet where
  /-- `VAL`: GET32LE, GET32BE -/
  | val
  /-- `H`: BLOCK -/
  | hash
  /-- `TAIL`, `NBLK`, `PLANINFO`: PLAN -/
  | plan
  /-- `TAIL`, `NBLK`, `PLANINFO`, `H`, `DIG`: HASH -/
  | whole
deriving DecidableEq, Repr

/-- A `TAIL` of free bytes (R224, log 4). -/
@[irreducible] def freeTail (draw : Nat) : Memory := Memory.writeBytes [] 0 (freeBytes draw 0x80 128)

/-- A `DIG` of free bytes (R224, log 4). -/
@[irreducible] def freeDig (draw : Nat) : Memory := Memory.writeBytes [] 0 (freeBytes draw 0x10 16)

/-- The plan registers and `TAIL` unspecified (R224). -/
def clobberPlan (s : State) : State :=
  { s with
    tail := freeTail s.draws
    nblk := Config.freeBits s.draws 0x06
    planinfo := freePlanInfo s.draws }

/-- A write set whose contents are unspecified (R224, V2; log 4). -/
def clobber (ws : WriteSet) (s : State) : State :=
  match ws with
  | .val => { s with val := Config.freeBits s.draws 0x05 }
  | .hash => { s with hash := freeHash s.draws }
  | .plan => clobberPlan s
  | .whole => { clobberPlan s with hash := freeHash s.draws, dig := freeDig s.draws }

/-- MSG_FAULT (R224, R226): fault entry with the write set of the command, and the internal registers, unspecified. -/
def raiseMsgFault (ws : WriteSet) (s : State) : State := scrubInternal (raiseFault errMsgFault (clobber ws s))

/-- The `Reset` action (R250, R48): every piece of state at its reset value, the internal registers unspecified; the message space, the host's
acts still to come, what the host has read and the count of draws are not the engine's and stay. -/
def resetAction (s : State) : State :=
  scrubInternal { State.reset with msg := s.msg, inbox := s.inbox, lastRead := s.lastRead, draws := s.draws }

end Sys2Proof.Machine
end

