-- ==== Sys2Proof/Machine/Operands.lean ====
section
/-! DEFINITION. The operands of a command (R95) and the byte-order codec as pure functions (spec/20_memory.md R62 to R66). -/

namespace Sys2Proof.Machine

/-- `size(S)` of R120 and R223: the declared length for `MSG`, 128 for `TAIL`, 16 for `DIG`. -/
def spaceSize (s : State) : Space → Nat
  | .msg => s.len.toNat
  | .tail => 128
  | .dig => 16

/-- The bounds check `OFF + n <= size(S)`, over the natural numbers (R223, R8). -/
def inBounds (s : State) (S : Space) (n : Nat) : Bool := decide (s.off.toNat + n ≤ spaceSize s S)

/-- The 32-bit value of four bytes, the least significant first (R62). -/
def wordLe (b0 b1 b2 b3 : Byte) : Word := b3 ++ b2 ++ b1 ++ b0

/-- The 32-bit value of four bytes, the most significant first (R63). -/
def wordBe (b0 b1 b2 b3 : Byte) : Word := b0 ++ b1 ++ b2 ++ b3

/-- `get_u32_le(S, off)` (R62); none where the read port reports an error. -/
def getU32Le (s : State) (S : Space) (off : Nat) : Option Word :=
  match memRead s S off 4 with
  | some [b0, b1, b2, b3] => some (wordLe b0 b1 b2 b3)
  | _ => none

/-- `get_u32_be(S, off)` (R63); none where the read port reports an error. -/
def getU32Be (s : State) (S : Space) (off : Nat) : Option Word :=
  match memRead s S off 4 with
  | some [b0, b1, b2, b3] => some (wordBe b0 b1 b2 b3)
  | _ => none

/-- The four bytes `v[8i+7 : 8i]`, `i` from 0 to 3 (R64). -/
def bytesLe32 (v : Word) : List Byte := [v.extractLsb' 0 8, v.extractLsb' 8 8, v.extractLsb' 16 8, v.extractLsb' 24 8]

/-- The eight bytes `v[8i+7 : 8i]`, `i` from 0 to 7 (R65). -/
def bytesLe64 (v : DWord) : List Byte :=
  [v.extractLsb' 0 8, v.extractLsb' 8 8, v.extractLsb' 16 8, v.extractLsb' 24 8,
   v.extractLsb' 32 8, v.extractLsb' 40 8, v.extractLsb' 48 8, v.extractLsb' 56 8]

/-- The eight bytes `v[63-8i : 56-8i]`, `i` from 0 to 7 (R66). -/
def bytesBe64 (v : DWord) : List Byte :=
  [v.extractLsb' 56 8, v.extractLsb' 48 8, v.extractLsb' 40 8, v.extractLsb' 32 8,
   v.extractLsb' 24 8, v.extractLsb' 16 8, v.extractLsb' 8 8, v.extractLsb' 0 8]

/-- `put_u32_le(S, off, v)` (R64). -/
def putU32Le (s : State) (B : Buffer) (off : Nat) (v : Word) : State := memWrite s B off (bytesLe32 v)

/-- `put_u64_le(S, off, v)` (R65). -/
def putU64Le (s : State) (B : Buffer) (off : Nat) (v : DWord) : State := memWrite s B off (bytesLe64 v)

/-- `put_u64_be(S, off, v)` (R66). -/
def putU64Be (s : State) (B : Buffer) (off : Nat) (v : DWord) : State := memWrite s B off (bytesBe64 v)

end Sys2Proof.Machine
end

