-- ==== Sys2Proof/Machine/Codec.lean ====
section
/-! DEFINITION. The byte-order codec commands GET32LE, GET32BE, PUT32LE, PUT64LE, PUT64BE (spec/40_codec.md R120 to R125). -/

namespace Sys2Proof.Machine

/-- The shared course of a get (R120 to R122): bounds check, read, `VAL <- zext_64(result)`. -/
def getCommand (get : State → Space → Nat → Option Word) (S : Space) (s : State) : Result :=
  if inBounds s S 4 then
    match get s S s.off.toNat with
    | some w => .next (finish { s with val := w.setWidth 64 })
    | none => .next (raiseMsgFault .val s)
  else .next (raiseFault errBounds s)

/-- The shared course of a put of `n` bytes (R120, R123 to R125): bounds check, write; `put` is one of the codec's puts applied to its value. -/
def putCommand (n : Nat) (B : Buffer) (put : State → Buffer → Nat → State) (s : State) : Result :=
  if inBounds s (bufferSpace B) n then .next (finish (put s B s.off.toNat)) else .next (raiseFault errBounds s)

/-- GET32LE MSG (R121). -/
def execGet32leMsg (s : State) : Result := getCommand getU32Le .msg s

/-- GET32LE TAIL (R121). -/
def execGet32leTail (s : State) : Result := getCommand getU32Le .tail s

/-- GET32LE DIG (R121). -/
def execGet32leDig (s : State) : Result := getCommand getU32Le .dig s

/-- GET32BE MSG (R122). -/
def execGet32beMsg (s : State) : Result := getCommand getU32Be .msg s

/-- GET32BE TAIL (R122). -/
def execGet32beTail (s : State) : Result := getCommand getU32Be .tail s

/-- GET32BE DIG (R122). -/
def execGet32beDig (s : State) : Result := getCommand getU32Be .dig s

/-- PUT32LE TAIL (R123): the value is `VAL[31:0]`. -/
def execPut32leTail (s : State) : Result := putCommand 4 .tail (fun s B o => putU32Le s B o (s.val.extractLsb' 0 32)) s

/-- PUT32LE DIG (R123): the value is `VAL[31:0]`. -/
def execPut32leDig (s : State) : Result := putCommand 4 .dig (fun s B o => putU32Le s B o (s.val.extractLsb' 0 32)) s

/-- PUT64LE TAIL (R124). -/
def execPut64leTail (s : State) : Result := putCommand 8 .tail (fun s B o => putU64Le s B o s.val) s

/-- PUT64LE DIG (R124). -/
def execPut64leDig (s : State) : Result := putCommand 8 .dig (fun s B o => putU64Le s B o s.val) s

/-- PUT64BE TAIL (R125). -/
def execPut64beTail (s : State) : Result := putCommand 8 .tail (fun s B o => putU64Be s B o s.val) s

/-- PUT64BE DIG (R125). -/
def execPut64beDig (s : State) : Result := putCommand 8 .dig (fun s B o => putU64Be s B o s.val) s

end Sys2Proof.Machine
end

