-- ==== Sys2Proof/Machine/Compress.lean ====
section
/-! DEFINITION. The compression core: INIT and BLOCK, the 64 rounds and their tables (spec/42_compress.md R160 to R178). -/

namespace Sys2Proof.Machine

/-- The non-linear function of round group 1 (R164). -/
def F1 (b c d : Word) : Word := (b &&& c) ||| (~~~b &&& d)

/-- The non-linear function of round group 2 (R165). -/
def F2 (b c d : Word) : Word := (d &&& b) ||| (~~~d &&& c)

/-- The non-linear function of round group 3 (R166). -/
def F3 (b c d : Word) : Word := b ^^^ c ^^^ d

/-- The non-linear function of round group 4 (R167). -/
def F4 (b c d : Word) : Word := c ^^^ (b ||| ~~~d)

/-- `F(i, b, c, d)`, the function of round `i` (R168). -/
def roundF (i : Nat) (b c d : Word) : Word :=
  if i < 16 then F1 b c d else if i < 32 then F2 b c d else if i < 48 then F3 b c d else F4 b c d

/-- The additive constants of round groups 1 and 2 (R169). -/
def tableK1 : List Word :=
  [0xD76AA478, 0xE8C7B756, 0x242070DB, 0xC1BDCEEE,
   0xF57C0FAF, 0x4787C62A, 0xA8304613, 0xFD469501,
   0x698098D8, 0x8B44F7AF, 0xFFFF5BB1, 0x895CD7BE,
   0x6B901122, 0xFD987193, 0xA679438E, 0x49B40821]

def tableK2 : List Word :=
  [0xF61E2562, 0xC040B340, 0x265E5A51, 0xE9B6C7AA,
   0xD62F105D, 0x02441453, 0xD8A1E681, 0xE7D3FBC8,
   0x21E1CDE6, 0xC33707D6, 0xF4D50D87, 0x455A14ED,
   0xA9E3E905, 0xFCEFA3F8, 0x676F02D9, 0x8D2A4C8A]

/-- The additive constants of round groups 3 and 4 (R169). -/
def tableK3 : List Word :=
  [0xFFFA3942, 0x8771F681, 0x6D9D6122, 0xFDE5380C,
   0xA4BEEA44, 0x4BDECFA9, 0xF6BB4B60, 0xBEBFBC70,
   0x289B7EC6, 0xEAA127FA, 0xD4EF3085, 0x04881D05,
   0xD9D4D039, 0xE6DB99E5, 0x1FA27CF8, 0xC4AC5665]

def tableK4 : List Word :=
  [0xF4292244, 0x432AFF97, 0xAB9423A7, 0xFC93A039,
   0x655B59C3, 0x8F0CCC92, 0xFFEFF47D, 0x85845DD1,
   0x6FA87E4F, 0xFE2CE6E0, 0xA3014314, 0x4E0811A1,
   0xF7537E82, 0xBD3AF235, 0x2AD7D2BB, 0xEB86D391]

/-- `K[i]`, the additive constant of round `i` (R169, log 14). -/
def tableK (i : Nat) : Word := (tableK1 ++ tableK2 ++ tableK3 ++ tableK4).getD i 0

/-- The rotation amounts (R170, log 14): four per round group, repeated four times. -/
def amounts : List Nat := [7, 12, 17, 22, 5, 9, 14, 20, 4, 11, 16, 23, 6, 10, 15, 21]

/-- `S[i]`, the rotation amount of round `i` (R170). -/
def tableS (i : Nat) : Nat := amounts.getD (4 * (i / 16) + i % 4) 0

/-- The word indices as R171 prints them, a row for each round group (log 14). -/
def tableG1 : List Nat := [0, 1, 2, 3, 4, 5, 6, 7, 8, 9, 10, 11, 12, 13, 14, 15]

def tableG2 : List Nat := [1, 6, 11, 0, 5, 10, 15, 4, 9, 14, 3, 8, 13, 2, 7, 12]

def tableG3 : List Nat := [5, 8, 11, 14, 1, 4, 7, 10, 13, 0, 3, 6, 9, 12, 15, 2]

def tableG4 : List Nat := [0, 7, 14, 5, 12, 3, 10, 1, 8, 15, 6, 13, 4, 11, 2, 9]

/-- `G[i]`, the word index of round `i` (R171). -/
def tableG (i : Nat) : Nat := (tableG1 ++ tableG2 ++ tableG3 ++ tableG4).getD i 0

/-- `rotl32(x, n)` (R172): a circular shift by shift-and-mask, the amount taken modulo 32. -/
def rotl32 (x : Word) (n : Nat) : Word := (x <<< (n % 32)) ||| (x >>> (32 - n % 32))

/-- One round (R173): round `i` on the working variables, with the block words `w`. -/
def round (w : Vector Word 16) (x : Work) (i : Nat) : Work :=
  ⟨x.d, x.b + rotl32 (x.a + roundF i x.b x.c x.d + tableK i + w.toList.getD (tableG i) 0) (tableS i), x.b, x.c⟩

/-- Block word `i` of 64 bytes: `blk[4i] + 2^8 * blk[4i+1] + 2^16 * blk[4i+2] + 2^24 * blk[4i+3]` (R162, R175). -/
def blockWord (blk : List Byte) (i : Nat) : Word :=
  wordLe (blk.getD (4 * i) 0) (blk.getD (4 * i + 1) 0) (blk.getD (4 * i + 2) 0) (blk.getD (4 * i + 3) 0)

/-- The sixteen block words (R162). -/
def blockWords (blk : List Byte) : Vector Word 16 :=
  #v[blockWord blk 0, blockWord blk 1, blockWord blk 2, blockWord blk 3,
     blockWord blk 4, blockWord blk 5, blockWord blk 6, blockWord blk 7,
     blockWord blk 8, blockWord blk 9, blockWord blk 10, blockWord blk 11,
     blockWord blk 12, blockWord blk 13, blockWord blk 14, blockWord blk 15]

/-- The working variables loaded from the hash state (R163). -/
def loadWork (h : HashState) : Work := ⟨h.h0, h.h1, h.h2, h.h3⟩

/-- The add-back (R174). -/
def addBack (h : HashState) (x : Work) : HashState := ⟨h.h0 + x.a, h.h1 + x.b, h.h2 + x.c, h.h3 + x.d⟩

/-- The 64 rounds in order (R175). -/
def rounds (w : Vector Word 16) (x : Work) : Work := (List.range 64).foldl (round w) x

/-- `compress(h, blk)` (R161, R175). -/
def compress (h : HashState) (blk : List Byte) : HashState := addBack h (rounds (blockWords blk) (loadWork h))

/-- INIT (R160): `H <- IV`. -/
def execInit (s : State) : Result := .next (finish { s with hash := HashState.iv })

/-- The shared course of BLOCK (R178): bounds check, 64 bytes read, `H <- compress(H, blk)`; `OFF` is not advanced. -/
def blockCommand (S : Space) (s : State) : Result :=
  if inBounds s S 64 then
    match memRead s S s.off.toNat 64 with
    | some blk => .next (finish { s with hash := compress s.hash blk })
    | none => .next (raiseMsgFault .hash s)
  else .next (raiseFault errBounds s)

/-- BLOCK MSG (R178). -/
def execBlockMsg (s : State) : Result := blockCommand .msg s

/-- BLOCK TAIL (R178). -/
def execBlockTail (s : State) : Result := blockCommand .tail s

end Sys2Proof.Machine
end

