-- ==== Sys2Proof/Machine/Digest.lean ====
section
/-! DEFINITION. The digest formatter, DIGEST (spec/43_digest.md R190, R191). -/

namespace Sys2Proof.Machine

/-- `serialize(h0, h1, h2, h3)`, 16 bytes (R190). -/
def serialize (h : HashState) : List Byte := bytesLe32 h.h0 ++ bytesLe32 h.h1 ++ bytesLe32 h.h2 ++ bytesLe32 h.h3

/-- The body of DIGEST (R191), shared with HASH (R200): `put_u32_le(DIG, 4i, H[i])` for `i` from 0 to 3. -/
def formatDigest (s : State) : State :=
  putU32Le (putU32Le (putU32Le (putU32Le s .dig 0 s.hash.h0) .dig 4 s.hash.h1) .dig 8 s.hash.h2) .dig 12 s.hash.h3

/-- DIGEST (R191). -/
def execDigest (s : State) : Result := .next (finish (formatDigest s))

end Sys2Proof.Machine
end

