-- ==== Sys2Proof/Machine/Tail.lean ====
section
/-! DEFINITION. The padding/tail constructor, PLAN (spec/41_tail.md R140 to R147). -/

namespace Sys2Proof.Machine

/-- `lengthMod64 = Length mod 64` (R141). -/
def lengthMod64 (L : Nat) : Nat := L % 64

/-- `room = 64 - lengthMod64` (R142). -/
def room (L : Nat) : Nat := 64 - lengthMod64 L

/-- `chunkCount`, the descriptors of the plan, 3 when `room < 9` (R143). -/
def chunkCount (L : Nat) : Nat := if room L < 9 then 3 else 2

/-- `zeros`, the 0x00 bytes between the marker and the trailer (R143). -/
def zeros (L : Nat) : Nat := if room L < 9 then 56 + room L - 1 else room L - 9

/-- The number of full blocks `floor(Length / 64)` (R141). -/
def blockCount (L : Nat) : Nat := L / 64

/-- The bit length `Length * 8`, taken modulo 2^64 (R145). -/
def bitLength (L : Nat) : DWord := BitVec.ofNat 64 (L * 8)

/-- The offset of the length trailer in `TAIL` (R144). -/
def trailerOffset (L : Nat) : Nat := lengthMod64 L + zeros L + 1

/-- The contents of `TAIL` (R144): cleared, then the leftover message bytes, the marker 0x80 and the trailer. -/
def tailContents (L : Nat) (left : List Byte) : Memory :=
  Memory.writeBytes (Memory.write (Memory.writeBytes [] 0 left) (lengthMod64 L) 0x80) (trailerOffset L) (bytesLe64 (bitLength L))

/-- The fields of `PLANINFO` for a length (R147, R30). -/
def planInfoOf (L : Nat) : PlanInfo :=
  ⟨BitVec.ofNat 6 (lengthMod64 L), BitVec.ofNat 7 (room L), BitVec.ofNat 6 (zeros L), BitVec.ofNat 2 (chunkCount L)⟩

/-- The body of PLAN (R147), shared with HASH (R200); none for the read port's error. -/
def runPlan (s : State) : Option State :=
  match memRead s .msg (s.len.toNat - lengthMod64 s.len.toNat) (lengthMod64 s.len.toNat) with
  | none => none
  | some left =>
    some { s with
      tail := tailContents s.len.toNat left
      nblk := BitVec.ofNat 64 (blockCount s.len.toNat)
      planinfo := planInfoOf s.len.toNat }

/-- PLAN (R147). -/
def execPlan (s : State) : Result :=
  match runPlan s with
  | some t => .next (finish t)
  | none => .next (raiseMsgFault .plan s)

end Sys2Proof.Machine
end

