-- ==== Sys2Proof/Machine/Hash.lean ====
section
/-! DEFINITION. The whole-message operation, HASH (spec/44_hash.md R200). -/

namespace Sys2Proof.Machine

/-- `count` blocks of a descriptor `(S, off, count)` in order (R146, R177): `H <- compress(H, MemRead(S, off, 64))`, then the next 64 bytes;
none for the read port's error. -/
def compressBlocks (s : State) (S : Space) : Nat → Nat → HashState → Option HashState
  | _, 0, h => some h
  | off, n + 1, h =>
    match memRead s S off 64 with
    | none => none
    | some blk => compressBlocks s S (off + 64) n (compress h blk)

/-- The phases INIT, BODY, TAIL1 and TAIL2 of HASH after its PLAN (R200): descriptor A, descriptor B, descriptor C when `CHUNKS = 3` (R146). -/
def compressPlan (s : State) : Option HashState :=
  match compressBlocks s .msg 0 s.nblk.toNat HashState.iv with
  | none => none
  | some h =>
    match compressBlocks s .tail 0 1 h with
    | none => none
    | some h => if s.planinfo.chunks = 3 then compressBlocks s .tail 64 1 h else some h

/-- The body of HASH (R200): PLAN, the blocks, the digest; none for the read port's error. -/
def runHash (s : State) : Option State :=
  match runPlan s with
  | none => none
  | some t =>
    match compressPlan t with
    | none => none
    | some h => some (formatDigest { t with hash := h })

/-- HASH (R200). -/
def execHash (s : State) : Result :=
  match runHash s with
  | some t => .next (finish t)
  | none => .next (raiseMsgFault .whole s)

end Sys2Proof.Machine
end

