-- ==== Sys2Proof/Machine/Dispatch.lean ====
section
/-! DEFINITION. One arm per command: the direct call of its meaning. -/

namespace Sys2Proof.Machine

/-- The engine executing a command to its end as one atomic transition (R105). -/
def exec (i : Instr) (s : State) : Host.Outcome State Fault Refusal :=
  match i with
  | .get32leMsg => Sys2Proof.Machine.execGet32leMsg s
  | .get32leTail => Sys2Proof.Machine.execGet32leTail s
  | .get32leDig => Sys2Proof.Machine.execGet32leDig s
  | .get32beMsg => Sys2Proof.Machine.execGet32beMsg s
  | .get32beTail => Sys2Proof.Machine.execGet32beTail s
  | .get32beDig => Sys2Proof.Machine.execGet32beDig s
  | .put32leTail => Sys2Proof.Machine.execPut32leTail s
  | .put32leDig => Sys2Proof.Machine.execPut32leDig s
  | .put64leTail => Sys2Proof.Machine.execPut64leTail s
  | .put64leDig => Sys2Proof.Machine.execPut64leDig s
  | .put64beTail => Sys2Proof.Machine.execPut64beTail s
  | .put64beDig => Sys2Proof.Machine.execPut64beDig s
  | .init => Sys2Proof.Machine.execInit s
  | .plan => Sys2Proof.Machine.execPlan s
  | .blockMsg => Sys2Proof.Machine.execBlockMsg s
  | .blockTail => Sys2Proof.Machine.execBlockTail s
  | .digest => Sys2Proof.Machine.execDigest s
  | .hash => Sys2Proof.Machine.execHash s

end Sys2Proof.Machine
end

