-- ==== Sys2Proof/Machine/Flags.lean ====
section
/-! DEFINITION. The register views of `STATUS` (R31) and `PLANINFO` (R30). The engine has no arithmetic flags and no condition codes (R31). -/

namespace Sys2Proof.Machine

/-- `STATUS` as the host reads it (R31): bit 0 `BUSY`, bit 1 `DONE`, bit 2 `OVR`, bits 7:4 `ERR`, every other bit 0. -/
def Status.word (st : Status) : Word :=
  (0 : BitVec 24) ++ st.err ++ (0 : BitVec 1) ++ BitVec.ofBool st.ovr ++ BitVec.ofBool st.done ++ BitVec.ofBool st.busy

/-- `PLANINFO` as the host reads it (R30): LM64 in bits 5:0, ROOM in 14:8, ZEROS in 21:16, CHUNKS in 25:24, every other bit 0. -/
def PlanInfo.word (p : PlanInfo) : Word :=
  (0 : BitVec 6) ++ p.chunks ++ (0 : BitVec 2) ++ p.zeros ++ (0 : BitVec 1) ++ p.room ++ (0 : BitVec 2) ++ p.lm64

end Sys2Proof.Machine
end

