-- ==== Sys2Proof/Machine/HostPort.lean ====
section
/-! DEFINITION. The host's side: `HostWrite`, `HostRead`, `Reset` on the register numbers of R45 (R46, R102 to R104, R250, R254, R255), and the changes of the message space (R41, R256). -/

namespace Sys2Proof.Machine

/-- Acceptance of a command word (R102 (c)): nothing but `PEND`, `BUSY` and `DONE` changes, and the word is not decoded. -/
def accept (w : Word) (s : State) : State :=
  { s with pend := w, status := { s.status with busy := true, done := false } }

/-- A write while busy is dropped and recorded (R254, R34). -/
def overrun (s : State) : State := { s with status := { s.status with ovr := true } }

/-- `HostWrite(CMD, w)` (R102). -/
def writeCmd (w : Word) (s : State) : State :=
  if s.status.busy then overrun s else if s.status.err = 0 then accept w s else s

/-- `HostWrite(reg, v)`: `CMD` (R102), `LEN`, `OFF`, `VAL` (R103); any other number is ignored (R46). -/
def hostWrite (reg : Nat) (v : DWord) (s : State) : State :=
  match reg with
  | 0x00 => writeCmd (v.setWidth 32) s
  | 0x03 => if s.status.busy then overrun s else { s with len := v }
  | 0x04 => if s.status.busy then overrun s else { s with off := v }
  | 0x05 => if s.status.busy then overrun s else { s with val := v }
  | _ => s

/-- The width of the register a number names (R45); 0 for a number that names none. -/
def regWidth (reg : Nat) : Nat :=
  if reg ≤ 0x02 then 32
  else if reg ≤ 0x06 then 64
  else if reg ≤ 0x0B then 32
  else if 0x10 ≤ reg ∧ reg < 0x20 then 8
  else if 0x80 ≤ reg ∧ reg < 0x100 then 8
  else 0

/-- The value of register number `reg` (R45), zero-extended; 0 for `CMD` (R37) and for a number that names no register (R46). -/
def regValue (s : State) (reg : Nat) : DWord :=
  if reg = 0x01 then s.status.word.setWidth 64
  else if reg = 0x02 then s.errinfo.setWidth 64
  else if reg = 0x03 then s.len
  else if reg = 0x04 then s.off
  else if reg = 0x05 then s.val
  else if reg = 0x06 then s.nblk
  else if reg = 0x07 then s.planinfo.word.setWidth 64
  else if reg = 0x08 then s.hash.h0.setWidth 64
  else if reg = 0x09 then s.hash.h1.setWidth 64
  else if reg = 0x0A then s.hash.h2.setWidth 64
  else if reg = 0x0B then s.hash.h3.setWidth 64
  else if 0x10 ≤ reg ∧ reg < 0x20 then (Memory.read s.dig (reg - 0x10)).setWidth 64
  else if 0x80 ≤ reg ∧ reg < 0x100 then (Memory.read s.tail (reg - 0x80)).setWidth 64
  else 0

/-- The registers a command may be half-way through writing: `VAL`, `NBLK`, `PLANINFO`, `H0` to `H3`, `DIG[i]`, `TAIL[i]` (R255). -/
def resultReg (reg : Nat) : Bool :=
  decide ((0x05 ≤ reg ∧ reg ≤ 0x0B) ∨ (0x10 ≤ reg ∧ reg < 0x20) ∨ (0x80 ≤ reg ∧ reg < 0x100))

/-- A free value of the width of a register, zero-extended (R255, V1; log 4). All 32 bits of `PLANINFO` are free too, the reserved ones among them,
although R47 and V11 let those read 0: the model's choice between the two for a read while busy (log 20). -/
def freeRegValue (draw reg : Nat) : DWord := Config.freeBits draw reg &&& BitVec.ofNat 64 (2 ^ regWidth reg - 1)

/-- `HostRead(reg)` (R104): the register's value, and no effect on the engine; while busy a result register reads as a fresh free value (R255). -/
def hostRead (reg : Nat) (s : State) : State :=
  if s.status.busy && resultReg reg then
    { s with lastRead := some (reg, freeRegValue s.draws reg), draws := s.draws + 1 }
  else { s with lastRead := some (reg, regValue s reg) }

/-- The message space becomes `m`; while a command is in flight what it was is kept as a version the engine may still read (R256, log 10). -/
def changeMsg (m : Message) (s : State) : State :=
  { s with msg := m, msgOld := if s.status.busy then s.msg :: s.msgOld else s.msgOld }

/-- The owner of the message changes one byte of it; an offset at or beyond the extent names no byte and nothing happens (R41, log 19). -/
def storeMsg (off : Nat) (b : Byte) (s : State) : State :=
  if off < s.msg.extent then changeMsg { s.msg with cells := Memory.write s.msg.cells off b } s else s

/-- The platform binds another message (R41, R251); a cell at or beyond its extent is no byte of it. -/
def bindMsg (extent : Nat) (cells : List Host.Cell) (s : State) : State :=
  changeMsg ⟨Memory.ofCells (cells.filter fun c => decide (c.1 < extent)), extent⟩ s

/-- What one act of the host does (R10). The engine's own step after `wait` is `engineStep` of Engine.lean. -/
def hostAct : HostAction → State → State
  | .write reg v, s => hostWrite reg v s
  | .read reg, s => hostRead reg s
  | .reset, s => resetAction s
  | .storeMsg off b, s => storeMsg off b s
  | .bindMsg extent cells, s => bindMsg extent cells s
  | .wait, s => s

end Sys2Proof.Machine
end

