-- ==== Sys2Proof/Machine/Engine.lean ====
section
/-! DEFINITION. The engine step (R105) and the choice of who moves: the host by its next act, or the engine (R10, R20; log 1). -/

namespace Sys2Proof.Machine

/-- `EngineStep` (R105): exactly when `BUSY = 1`, `PEND` is decoded and executed; an illegal word raises ILLEGAL_CMD (R222). With `BUSY = 0` the
engine has no step and nothing changes (log 2). -/
def engineStep (s : State) : Result :=
  if s.status.busy then
    match decode s.pend with
    | .ok i => exec i s
    | .error _ => .next (raiseFault errIllegalCmd s)
  else .next s

/-- One step of host and engine together: the host's next act if there is one, otherwise, and when the host waits, the engine's step. -/
def machineStep (s : State) : Result :=
  match s.inbox with
  | [] => engineStep s
  | .wait :: rest => engineStep { s with inbox := rest }
  | a :: rest => .next (hostAct a { s with inbox := rest })

/-- The state in which the command word `w` has been accepted (R102) and the engine has the next step (log 3). -/
def offerWord (w : Word) (s : State) : State :=
  accept w { s with inbox := match s.inbox with
                             | [] => []
                             | acts => .wait :: acts }

end Sys2Proof.Machine
end

