-- ==== Sys2Proof/Machine/Step.lean ====
section
/-! DEFINITION. The step of the machine, and how the host places a command word for the next step. -/

namespace Sys2Proof.Machine

/-- One step. -/
def step (s : State) : Host.Outcome State Fault Refusal := machineStep s

/-- `s` with the command word whose bits, numbered as spec/opcode_table.json numbers them, are `w`, where the next step takes it from: accepted in
`PEND` (R102), the engine to move (log 3). -/
def State.withFetchWord (s : State) (nbits w : Nat) : State := offerWord (tableWord nbits w) s

end Sys2Proof.Machine
end

