-- ==== Sys2Proof/Machine/Sequencer.lean ====
section
/-! DEFINITION. The sequencer inside one HASH: how `SEQ`, `A` to `D`, `W` and `H` move round by round (R40, R163, R173 to R175, R201). No observer sees these moves, since a command is one atomic step (R105, `execHash`); Obligations.lean states that the two agree. -/

namespace Sys2Proof.Machine

/-- The sequencer at the start of HASH: phase PLAN (R201), with `BLK` and `RND` 0 (log 8). -/
def seqStart (s : State) : State := { s with seq := ⟨.plan, 0, 0⟩ }

/-- One round of the block at `off` of `S` (R173): before round 0 the block words and the working registers are loaded (R162, R163); after
round 63 they are added back into `H` (R174) and the sequencer goes to `after`. None for the read port's error. -/
def seqRound (S : Space) (off : Nat) (after : Seq) (s : State) : Option State :=
  let loaded : Option State :=
    if s.seq.rnd = 0 then
      match memRead s S off 64 with
      | none => none
      | some blk => some { s with words := blockWords blk, work := loadWork s.hash }
    else some s
  match loaded with
  | none => none
  | some t =>
    let x := round t.words t.work t.seq.rnd
    if t.seq.rnd < 63 then some { t with work := x, seq := { t.seq with rnd := t.seq.rnd + 1 } }
    else some { t with work := x, hash := addBack t.hash x, seq := after }

/-- One move of the sequencer (R201): PLAN, INIT, BODY (skipped when `NBLK = 0`), TAIL1, TAIL2 (only when `CHUNKS = 3`), FORMAT, IDLE.
R40 and R201 give `BLK` in BODY only and `RND` in BODY, TAIL1 and TAIL2 only; that they are 0 in every other phase is the model's choice (log 8). -/
def seqMove (s : State) : Option State :=
  match s.seq.phase with
  | .plan => (runPlan s).map fun t => { t with seq := ⟨.init, 0, 0⟩ }
  | .init => some { s with hash := HashState.iv, seq := if s.nblk = 0 then ⟨.tail1, 0, 0⟩ else ⟨.body, 0, 0⟩ }
  | .body =>
    seqRound .msg (64 * s.seq.blk) (if s.seq.blk + 1 < s.nblk.toNat then ⟨.body, s.seq.blk + 1, 0⟩ else ⟨.tail1, 0, 0⟩) s
  | .tail1 => seqRound .tail 0 (if s.planinfo.chunks = 3 then ⟨.tail2, 0, 0⟩ else ⟨.format, 0, 0⟩) s
  | .tail2 => seqRound .tail 64 ⟨.format, 0, 0⟩ s
  | .format => some { formatDigest s with seq := ⟨.idle, 0, 0⟩ }
  | .codec => some { s with seq := ⟨.idle, 0, 0⟩ }
  | .idle => some s

/-- `n` moves of the sequencer; none for the read port's error. -/
def seqRun : Nat → State → Option State
  | 0, s => some s
  | n + 1, s =>
    match seqMove s with
    | none => none
    | some t => seqRun n t

end Sys2Proof.Machine
end

