-- ==== Sys2Proof/Machine/Reference.lean ====
section
/-! DEFINITION. The function HASH computes, without reference to the engine's state (spec/44_hash.md R205), and the hand-unrolled form of the rounds (R179). -/

namespace Sys2Proof.Machine

/-- `z` of R205: the zero bytes that bring `L + 1 + z + 8` to the next multiple of 64. -/
def padZeros (L : Nat) : Nat := (119 - L % 64) % 64

/-- `pad(m)` (R205). -/
def pad (m : List Byte) : List Byte := m ++ [0x80] ++ List.replicate (padZeros m.length) 0x00 ++ bytesLe64 (bitLength m.length)

/-- The first `n` consecutive 64-byte blocks of a byte sequence (R205). -/
def cutBlocks : Nat → List Byte → List (List Byte)
  | 0, _ => []
  | n + 1, bs => bs.take 64 :: cutBlocks n (bs.drop 64)

/-- `h_n` of R205: the hash state after all `n = floor(L / 64) + chunkCount - 1` blocks of the padded message, from `IV`. -/
def md5State (m : List Byte) : HashState :=
  (cutBlocks (blockCount m.length + chunkCount m.length - 1) (pad m)).foldl compress HashState.iv

/-- `md5(m)`, 16 bytes (R205). -/
def md5 (m : List Byte) : List Byte := serialize (md5State m)

/-- What an unrolled step adds to the variable in the role of `b`: R173's new `b` from its four roles. -/
def stepValue (w : Vector Word 16) (i : Nat) (a b c d : Word) : Word :=
  b + rotl32 (a + roundF i b c d + tableK i + w.toList.getD (tableG i) 0) (tableS i)

/-- One step of the hand-unrolled form (R179): the variables do not move; step `i` updates `a`, `d`, `c` or `b` as `i mod 4` is 0, 1, 2 or 3,
the other three in the roles of R173 rotated likewise. -/
def unrolledStep (w : Vector Word 16) (x : Work) (i : Nat) : Work :=
  if i % 4 = 0 then { x with a := stepValue w i x.a x.b x.c x.d }
  else if i % 4 = 1 then { x with d := stepValue w i x.d x.a x.b x.c }
  else if i % 4 = 2 then { x with c := stepValue w i x.c x.d x.a x.b }
  else { x with b := stepValue w i x.b x.c x.d x.a }

end Sys2Proof.Machine
end

