-- ==== Sys2Proof/Safety.lean ====
section
/-! DEFINITION. What counts as a good state: the invariant every step keeps, and the terms the claims use for a stopped engine and for host-visible state. -/

namespace Sys2Proof

open Sys2Proof.Machine

/-- A message in canonical form with no byte listed at or beyond its extent. -/
structure MessageOk (m : Message) : Prop where
  wf : Memory.wf m.cells = true
  below : Memory.below m.extent m.cells = true

/-- The invariant of the machine. -/
structure Inv (s : State) : Prop where
  /-- The byte spaces are in canonical form and stay within their sizes (R27, R28). -/
  tail_wf : Memory.wf s.tail = true
  tail_below : Memory.below 128 s.tail = true
  dig_wf : Memory.wf s.dig = true
  dig_below : Memory.below 16 s.dig = true
  msg_ok : MessageOk s.msg
  old_ok : ∀ m ∈ s.msgOld, MessageOk m
  /-- Codes 4 to 15 are never produced (R35). -/
  err_code : s.status.err.toNat ≤ 3
  /-- A stopped engine has accepted nothing (R102). -/
  busy_err : s.status.busy = true → s.status.err = 0
  /-- `DONE` is cleared when a command is accepted and when one ends in a fault (R33). -/
  busy_done : s.status.busy = true → s.status.done = false
  err_done : s.status.err ≠ 0 → s.status.done = false
  /-- `ERRINFO` is 0 until a fault (R36). -/
  errinfo : s.status.err = 0 → s.errinfo = 0
  /-- Between steps the sequencer is idle (R40, R105). -/
  seq_idle : s.seq = ⟨.idle, 0, 0⟩
  /-- There is a window on the message only while a command is in flight (R256). -/
  window : s.status.busy = false → s.msgOld = []
  /-- `NBLK` is below 2^58 unless MSG_FAULT has left it unspecified (R29, R224). -/
  nblk_bound : s.status.err ≠ errMsgFault → s.nblk.toNat < 2 ^ 58
  /-- `PLANINFO` holds no plan or the plan of some length, unless MSG_FAULT has left it unspecified (R30, R224). -/
  planinfo : s.status.err ≠ errMsgFault → s.planinfo = ⟨0, 0, 0, 0⟩ ∨ ∃ L, s.planinfo = planInfoOf L

/-- The engine is stopped by a fault (R227). -/
def Stopped (s : State) : Prop := s.status.busy = false ∧ s.status.err ≠ 0

/-- The host's next act is `Reset`. -/
def ResetNext (s : State) : Prop := ∃ rest, s.inbox = .reset :: rest

/-- The engine has the next step: the host has no act to come, or waits. -/
def EngineNext (s : State) : Prop := s.inbox = [] ∨ ∃ rest, s.inbox = .wait :: rest

/-- Two states with the same host-visible state, the state carried between two commands (R43). -/
structure SameVisible (s t : State) : Prop where
  hash : t.hash = s.hash
  len : t.len = s.len
  off : t.off = s.off
  val : t.val = s.val
  tail : t.tail = s.tail
  dig : t.dig = s.dig
  nblk : t.nblk = s.nblk
  planinfo : t.planinfo = s.planinfo
  status : t.status = s.status
  errinfo : t.errinfo = s.errinfo

end Sys2Proof
end

