-- ==== Sys2Proof/Certificates/Slice0/Obligations.lean ====
section
/-! DEFINITION. The statements for the provers, from the numbered rules of spec/. -/

namespace Sys2Proof.Claims

open Sys2Proof.Machine

/-- GET32LE of each buffer it may name (R96). -/
def get32le : Space → Instr
  | .msg => .get32leMsg
  | .tail => .get32leTail
  | .dig => .get32leDig

/-- GET32BE of each buffer it may name (R96). -/
def get32be : Space → Instr
  | .msg => .get32beMsg
  | .tail => .get32beTail
  | .dig => .get32beDig

/-- PUT32LE of each buffer it may name (R96). -/
def put32le : Buffer → Instr
  | .tail => .put32leTail
  | .dig => .put32leDig

/-- PUT64LE of each buffer it may name (R96). -/
def put64le : Buffer → Instr
  | .tail => .put64leTail
  | .dig => .put64leDig

/-- PUT64BE of each buffer it may name (R96). -/
def put64be : Buffer → Instr
  | .tail => .put64beTail
  | .dig => .put64beDig

/-- BLOCK of each buffer it may name (R96): `MSG`, and otherwise `TAIL`. -/
def block : Space → Instr
  | .msg => .blockMsg
  | _ => .blockTail

/-- The byte at an offset of a buffer. -/
def bufByte (s : State) : Buffer → Nat → Byte
  | .tail, off => Memory.read s.tail off
  | .dig, off => Memory.read s.dig off

/-- The size of a buffer (R120). -/
def bufSize : Buffer → Nat
  | .tail => 128
  | .dig => 16

/-- The `n` bytes at `off` of a space can be read: for `MSG` they lie within the extent of the message, and of every version of it the host
has put in the window of the command (R69, R256); `TAIL` and `DIG` are always readable. -/
def Readable (s : State) (S : Space) (off n : Nat) : Prop := S = .msg → n = 0 ∨ ∀ v ∈ s.msg :: s.msgOld, off + n ≤ v.extent

/-- `bs` are the bytes the engine reads at `off` of a space. -/
def BytesAt (s : State) (S : Space) (off : Nat) (bs : List Byte) : Prop := ∀ i < bs.length, memByte s S (off + i) = some (bs.getD i 0)

/-- What every command that completes does (R105): `BUSY <- 0`, `DONE <- 1`, `SEQ <- IDLE`; `OVR`, `ERR` and `ERRINFO` keep their values, the
operand registers `LEN` and `OFF`, the message, the host's acts and what the host has read are not touched. (`PEND`, `A` to `D`, `W` are unspecified
afterwards, R37, R38, R39, and the window on the message closes.) -/
def Completed (s t : State) : Prop :=
  t.status = ⟨false, true, s.status.ovr, s.status.err⟩ ∧ t.errinfo = s.errinfo ∧ t.seq = ⟨.idle, 0, 0⟩ ∧ t.len = s.len ∧ t.off = s.off ∧
    t.msg = s.msg ∧ t.inbox = s.inbox ∧ t.lastRead = s.lastRead

/-- Fault entry (R226): `ERR <- code`, `ERRINFO <- PEND`, `DONE <- 0`, `BUSY <- 0`, `SEQ <- IDLE`; `OVR`, `LEN`, `OFF` keep their values. -/
def FaultEntered (code : BitVec 4) (s t : State) : Prop :=
  t.status = ⟨false, false, s.status.ovr, code⟩ ∧ t.errinfo = s.pend ∧ t.seq = ⟨.idle, 0, 0⟩ ∧ t.len = s.len ∧ t.off = s.off ∧
    t.msg = s.msg ∧ t.inbox = s.inbox ∧ t.lastRead = s.lastRead

def KeepsHash (s t : State) : Prop := t.hash = s.hash
def KeepsVal (s t : State) : Prop := t.val = s.val
def KeepsPlan (s t : State) : Prop := t.nblk = s.nblk ∧ t.planinfo = s.planinfo
def KeepsTail (s t : State) : Prop := ∀ a, Memory.read t.tail a = Memory.read s.tail a
def KeepsDig (s t : State) : Prop := ∀ a, Memory.read t.dig a = Memory.read s.dig a

/-- The internal registers `PEND`, `A` to `D` and `W` keep their values. -/
def KeepsInternal (s t : State) : Prop := t.pend = s.pend ∧ t.work = s.work ∧ t.words = s.words

/-- After a put of `bs` at `off` of buffer `B`: those bytes stand there, every other byte of `B` and every byte of the other buffer is as before. -/
def BytesStored (s t : State) (B : Buffer) (off : Nat) (bs : List Byte) : Prop :=
  (∀ i < bs.length, bufByte t B (off + i) = bs.getD i 0) ∧
  (∀ a, a < off ∨ off + bs.length ≤ a → bufByte t B a = bufByte s B a) ∧
  (∀ C a, C ≠ B → bufByte t C a = bufByte s C a)

/-- The four bytes of a 32-bit value in the other order. -/
def reverseBytes (w : Word) : Word := w.extractLsb' 0 8 ++ w.extractLsb' 8 8 ++ w.extractLsb' 16 8 ++ w.extractLsb' 24 8

/-- The number of bytes a bounds-checked command touches and the space it names (R223). -/
def access : Instr → Option (Space × Nat)
  | .get32leMsg | .get32beMsg => some (.msg, 4)
  | .get32leTail | .get32beTail | .put32leTail => some (.tail, 4)
  | .get32leDig | .get32beDig | .put32leDig => some (.dig, 4)
  | .put64leTail | .put64beTail => some (.tail, 8)
  | .put64leDig | .put64beDig => some (.dig, 8)
  | .blockMsg => some (.msg, 64)
  | .blockTail => some (.tail, 64)
  | .init | .plan | .digest | .hash => none

/-- The commands that write the hash state (R23). -/
def writesHash (i : Instr) : Bool :=
  match i with
  | .init | .blockMsg | .blockTail | .hash => true
  | _ => false

/-- `f` on the next state of a result. -/
def andThen (r : Result) (f : State → Result) : Result :=
  match r with
  | .next t => f t
  | .fault e => .fault e
  | .refused e => .refused e

/-- A line of a host script that issues a command, and the engine step that executes it: `HostWrite(CMD, word)`, then `WAIT` (R106). -/
def issue (i : Instr) (s : State) : Result := exec i (writeCmd (encode i) s)

/-- `BLOCK <buf>, <off>` of R107: `WR OFF, <off>` and the BLOCK command. -/
def issueBlock (i : Instr) (off : Nat) (s : State) : Result := issue i (hostWrite 0x04 (BitVec.ofNat 64 off) s)

/-- `BLOCK MSG, off ; BLOCK MSG, off + 64 ; ...`, `n` commands. -/
def issueBody : Nat → Nat → State → Result
  | _, 0, s => .next s
  | off, n + 1, s => andThen (issueBlock .blockMsg off s) (issueBody (off + 64) n)

/-- The host script of R202. -/
def componentRun (s : State) : Result :=
  andThen (issue .plan s) fun s =>
  andThen (issue .init s) fun s =>
  andThen (issueBody 0 s.nblk.toNat s) fun s =>
  andThen (issueBlock .blockTail 0 s) fun s =>
  andThen (if s.planinfo.chunks = 3 then issueBlock .blockTail 64 s else .next s) fun s =>
  issue .digest s

end Sys2Proof.Claims

open Sys2Proof Sys2Proof.Machine Sys2Proof.Claims

-- ENCODING

/-- R96: one word of each command, read off its table. -/
def Obligations.TableWordsDecode : Prop :=
  decode 0x00000001 = .ok .get32leMsg ∧ decode 0x00000012 = .ok .get32beTail ∧ decode 0x00000023 = .ok .put32leDig ∧
  decode 0x00000014 = .ok .put64leTail ∧ decode 0x00000025 = .ok .put64beDig ∧ decode 0x00000006 = .ok .init ∧
  decode 0x00000007 = .ok .plan ∧ decode 0x00000018 = .ok .blockTail ∧ decode 0x00000009 = .ok .digest ∧
  decode 0x0000000A = .ok .hash ∧ decode 0x00000000 = .error .reservedOpcode ∧ decode 0x00000040 = .error .reservedBits

/-- R99, R96: over all 2^32 words, a word decodes to a command exactly when it is that command's word; no bit is dropped. -/
def Obligations.DecodeIffEncode : Prop :=
  ∀ (w : Word) (i : Instr), decode w = .ok i ↔ w = encode i

/-- R97: a word is refused exactly when one of the six clauses holds. -/
def Obligations.IllegalExactlyR97 : Prop :=
  ∀ w : Word, (∃ e, decode w = .error e) ↔
    (w.extractLsb' 6 26 ≠ 0 ∨
     (w.extractLsb' 0 4 = 0x0 ∨ 0xB ≤ (w.extractLsb' 0 4).toNat) ∨
     w.extractLsb' 4 2 = 3 ∨
     ((w.extractLsb' 0 4 = 0x6 ∨ w.extractLsb' 0 4 = 0x7 ∨ w.extractLsb' 0 4 = 0x9 ∨ w.extractLsb' 0 4 = 0xA) ∧ w.extractLsb' 4 2 ≠ 0) ∨
     ((w.extractLsb' 0 4 = 0x3 ∨ w.extractLsb' 0 4 = 0x4 ∨ w.extractLsb' 0 4 = 0x5) ∧ w.extractLsb' 4 2 = 0) ∨
     (w.extractLsb' 0 4 = 0x8 ∧ w.extractLsb' 4 2 = 2))

-- THE STEP

/-- R105: with the engine to move and `BUSY = 1`, the step is the execution of the decoded command, on the state from which the host's `wait`, if
there is one, is taken off. -/
def Obligations.StepRunsDecodedCommand : Prop :=
  ∀ (s : State) (i : Instr), s.status.busy = true → decode s.pend = .ok i →
    (s.inbox = [] → step s = exec i s) ∧
    (∀ rest, s.inbox = .wait :: rest → step s = exec i { s with inbox := rest })

/-- The word the host places is the one the next step executes, on the state in which it has been accepted (R102, R105). -/
def Obligations.PlacedWordIsExecuted : Prop :=
  ∀ (s : State) (i : Instr), ∃ t, step (s.withFetchWord 32 (encode i).toNat) = exec i t ∧ t.pend = encode i ∧
    t.status = ⟨true, false, s.status.ovr, s.status.err⟩ ∧ t.inbox = s.inbox ∧ SameVisible { s with status := t.status } t ∧
    t.msg = s.msg ∧ t.msgOld = s.msgOld ∧ t.work = s.work ∧ t.words = s.words

/-- R105: the engine has a step exactly when `BUSY = 1`; otherwise nothing of the state changes but the host's `wait` being taken off. -/
def Obligations.IdleEngineDoesNothing : Prop :=
  ∀ s : State, s.status.busy = false →
    (s.inbox = [] → step s = .next s) ∧ (∀ rest, s.inbox = .wait :: rest → step s = .next { s with inbox := rest })

/-- R10, R20: a host act that stands next in the inbox is the step, and is taken off (log 1). -/
def Obligations.HostActsInOrder : Prop :=
  ∀ (s : State) (rest : List HostAction),
    (∀ reg v, s.inbox = .write reg v :: rest → step s = .next (hostWrite reg v { s with inbox := rest })) ∧
    (∀ reg, s.inbox = .read reg :: rest → step s = .next (hostRead reg { s with inbox := rest })) ∧
    (∀ off b, s.inbox = .storeMsg off b :: rest → step s = .next (storeMsg off b { s with inbox := rest })) ∧
    (∀ extent cells, s.inbox = .bindMsg extent cells :: rest → step s = .next (bindMsg extent cells { s with inbox := rest }))

/-- R222, R226: executing an illegal word, with no host act to come or with the host waiting, raises ILLEGAL_CMD and nothing but `STATUS` and
`ERRINFO` changes (the host's `wait`, if there is one, is taken off). That `PEND`, `A` to `D` and `W` too keep their values is the model's choice
between R222, R226 and R37 to R39 (log 7). -/
def Obligations.IllegalWordFaults : Prop :=
  ∀ (s : State) (acts : List HostAction), (s.inbox = [] ∧ acts = []) ∨ s.inbox = .wait :: acts → s.status.busy = true →
    (∃ e, decode s.pend = .error e) →
    ∃ t, step s = .next t ∧ FaultEntered 1 { s with inbox := acts } t ∧ KeepsHash s t ∧ KeepsVal s t ∧ KeepsPlan s t ∧ KeepsTail s t ∧
      KeepsDig s t ∧ KeepsInternal s t

/-- R31: the bits of `STATUS`. -/
def Obligations.StatusRegisterBits : Prop :=
  ∀ st : Status, st.word.getLsbD 0 = st.busy ∧ st.word.getLsbD 1 = st.done ∧ st.word.getLsbD 2 = st.ovr ∧ st.word.getLsbD 3 = false ∧
    st.word.extractLsb' 4 4 = st.err ∧ st.word.extractLsb' 8 24 = 0

/-- R30, R47: the bits of `PLANINFO`. -/
def Obligations.PlanInfoRegisterBits : Prop :=
  ∀ p : PlanInfo, p.word.extractLsb' 0 6 = p.lm64 ∧ p.word.extractLsb' 6 2 = 0 ∧ p.word.extractLsb' 8 7 = p.room ∧ p.word.getLsbD 15 = false ∧
    p.word.extractLsb' 16 6 = p.zeros ∧ p.word.extractLsb' 22 2 = 0 ∧ p.word.extractLsb' 24 2 = p.chunks ∧ p.word.extractLsb' 26 6 = 0

-- RESET

/-- R48: the state after reset, every value the spec gives. -/
def Obligations.ResetValues : Prop :=
  State.reset.hash = ⟨0x67452301, 0xEFCDAB89, 0x98BADCFE, 0x10325476⟩ ∧ State.reset.len = 0 ∧ State.reset.off = 0 ∧ State.reset.val = 0 ∧
  (∀ a, Memory.read State.reset.tail a = 0) ∧ (∀ a, Memory.read State.reset.dig a = 0) ∧ State.reset.nblk = 0 ∧
  State.reset.planinfo.word = 0 ∧ State.reset.status.word = 0 ∧ State.reset.errinfo = 0 ∧ State.reset.seq.phase = .idle

/-- R250: `Reset` at any time, also while a command is in flight. -/
def Obligations.ResetActionRestores : Prop :=
  ∀ (s : State) (rest : List HostAction), s.inbox = .reset :: rest → ∃ t, step s = .next t ∧
    t.hash = ⟨0x67452301, 0xEFCDAB89, 0x98BADCFE, 0x10325476⟩ ∧ t.len = 0 ∧ t.off = 0 ∧ t.val = 0 ∧
    (∀ a, Memory.read t.tail a = 0) ∧ (∀ a, Memory.read t.dig a = 0) ∧ t.nblk = 0 ∧ t.planinfo.word = 0 ∧ t.status.word = 0 ∧ t.errinfo = 0 ∧
    t.seq.phase = .idle ∧ t.msg = s.msg ∧ t.inbox = rest

-- THE HOST PORT

/-- R102: the three cases of `HostWrite(CMD, w)`. -/
def Obligations.CommandAcceptance : Prop :=
  ∀ (s : State) (w : Word),
    (s.status.busy = true → hostWrite 0x00 (w.setWidth 64) s = { s with status := { s.status with ovr := true } }) ∧
    (s.status.busy = false → s.status.err ≠ 0 → hostWrite 0x00 (w.setWidth 64) s = s) ∧
    (s.status.busy = false → s.status.err = 0 →
      hostWrite 0x00 (w.setWidth 64) s = { s with pend := w, status := { s.status with busy := true, done := false } })

/-- R103: `HostWrite` to `LEN`, `OFF`, `VAL`, also when `ERR` is not 0. -/
def Obligations.OperandWrite : Prop :=
  ∀ (s : State) (v : DWord),
    (s.status.busy = true → hostWrite 0x03 v s = { s with status := { s.status with ovr := true } } ∧
      hostWrite 0x04 v s = { s with status := { s.status with ovr := true } } ∧
      hostWrite 0x05 v s = { s with status := { s.status with ovr := true } }) ∧
    (s.status.busy = false → hostWrite 0x03 v s = { s with len := v } ∧ hostWrite 0x04 v s = { s with off := v } ∧
      hostWrite 0x05 v s = { s with val := v })

/-- R46: a `HostWrite` to a read-only register or to a number that names no register changes nothing; a `HostRead` of a number that names no
register returns 0 and changes nothing but what the host has read. That it returns 0 also while busy is the model's reading of R46 against R104
(log 17); the record of what the host has read is the model's (log 13). -/
def Obligations.OtherAccessesIgnored : Prop :=
  ∀ (s : State) (reg : Nat),
    (∀ v : DWord, reg ≠ 0x00 → reg ≠ 0x03 → reg ≠ 0x04 → reg ≠ 0x05 → hostWrite reg v s = s) ∧
    ((0x0C ≤ reg ∧ reg < 0x10) ∨ (0x20 ≤ reg ∧ reg < 0x80) ∨ 0x100 ≤ reg → hostRead reg s = { s with lastRead := some (reg, 0) })

/-- R104, R45, R46: what `HostRead` returns while the engine is not busy, register by register, and that it changes nothing. -/
def Obligations.HostReadReturnsRegister : Prop :=
  ∀ (s : State), s.status.busy = false →
    (∀ reg, ∃ v, hostRead reg s = { s with lastRead := some (reg, v) }) ∧
    (hostRead 0x00 s).lastRead = some (0x00, 0) ∧
    (hostRead 0x01 s).lastRead = some (0x01, s.status.word.setWidth 64) ∧ (hostRead 0x02 s).lastRead = some (0x02, s.errinfo.setWidth 64) ∧
    (hostRead 0x03 s).lastRead = some (0x03, s.len) ∧ (hostRead 0x04 s).lastRead = some (0x04, s.off) ∧
    (hostRead 0x05 s).lastRead = some (0x05, s.val) ∧ (hostRead 0x06 s).lastRead = some (0x06, s.nblk) ∧
    (hostRead 0x07 s).lastRead = some (0x07, s.planinfo.word.setWidth 64) ∧
    (hostRead 0x08 s).lastRead = some (0x08, s.hash.h0.setWidth 64) ∧ (hostRead 0x09 s).lastRead = some (0x09, s.hash.h1.setWidth 64) ∧
    (hostRead 0x0A s).lastRead = some (0x0A, s.hash.h2.setWidth 64) ∧ (hostRead 0x0B s).lastRead = some (0x0B, s.hash.h3.setWidth 64) ∧
    (∀ i < 16, (hostRead (0x10 + i) s).lastRead = some (0x10 + i, (Memory.read s.dig i).setWidth 64)) ∧
    (∀ i < 128, (hostRead (0x80 + i) s).lastRead = some (0x80 + i, (Memory.read s.tail i).setWidth 64)) ∧
    (∀ reg, (0x0C ≤ reg ∧ reg < 0x10) ∨ (0x20 ≤ reg ∧ reg < 0x80) ∨ 0x100 ≤ reg → (hostRead reg s).lastRead = some (reg, 0))

/-- R255: while busy `STATUS`, `ERRINFO`, `LEN`, `OFF` read true and `CMD` reads 0; a read of any register leaves the command, and everything but
what the host has read, alone (the value of the other registers' reads is free, so nothing is said of it). -/
def Obligations.HostReadWhileBusy : Prop :=
  ∀ (s : State), s.status.busy = true →
    (hostRead 0x00 s).lastRead = some (0x00, 0) ∧ (hostRead 0x01 s).lastRead = some (0x01, s.status.word.setWidth 64) ∧
    (hostRead 0x02 s).lastRead = some (0x02, s.errinfo.setWidth 64) ∧ (hostRead 0x03 s).lastRead = some (0x03, s.len) ∧
    (hostRead 0x04 s).lastRead = some (0x04, s.off) ∧
    ∀ reg, ∃ v d, hostRead reg s = { s with lastRead := some (reg, v), draws := d }

-- THE COMMANDS: results, completion and frames

/-- R121: GET32LE of `MSG`, `TAIL`, `DIG`, in bounds and readable, completes; `VAL` is the zero-extended little-endian value, nothing else changes. -/
def Obligations.Get32leResult : Prop :=
  ∀ (s : State) (S : Space), s.off.toNat + 4 ≤ spaceSize s S → Readable s S s.off.toNat 4 →
    ∃ t b0 b1 b2 b3, exec (get32le S) s = .next t ∧ BytesAt s S s.off.toNat [b0, b1, b2, b3] ∧
      t.val.toNat = b0.toNat + 2 ^ 8 * b1.toNat + 2 ^ 16 * b2.toNat + 2 ^ 24 * b3.toNat ∧
      Completed s t ∧ KeepsHash s t ∧ KeepsPlan s t ∧ KeepsTail s t ∧ KeepsDig s t

/-- R122: GET32BE, the same with the most significant byte first. -/
def Obligations.Get32beResult : Prop :=
  ∀ (s : State) (S : Space), s.off.toNat + 4 ≤ spaceSize s S → Readable s S s.off.toNat 4 →
    ∃ t b0 b1 b2 b3, exec (get32be S) s = .next t ∧ BytesAt s S s.off.toNat [b0, b1, b2, b3] ∧
      t.val.toNat = 2 ^ 24 * b0.toNat + 2 ^ 16 * b1.toNat + 2 ^ 8 * b2.toNat + b3.toNat ∧
      Completed s t ∧ KeepsHash s t ∧ KeepsPlan s t ∧ KeepsTail s t ∧ KeepsDig s t

/-- R123, R64: PUT32LE of `TAIL`, `DIG`, in bounds, completes: the four bytes `VAL[8i+7 : 8i]` and nothing else; `get_u32_le` there then gives
`VAL[31:0]`. -/
def Obligations.Put32leResult : Prop :=
  ∀ (s : State) (B : Buffer), s.off.toNat + 4 ≤ bufSize B →
    ∃ t, exec (put32le B) s = .next t ∧
      BytesStored s t B s.off.toNat [s.val.extractLsb' 0 8, s.val.extractLsb' 8 8, s.val.extractLsb' 16 8, s.val.extractLsb' 24 8] ∧
      getU32Le t (bufferSpace B) s.off.toNat = some (s.val.extractLsb' 0 32) ∧
      Completed s t ∧ KeepsHash s t ∧ KeepsVal s t ∧ KeepsPlan s t

/-- R124: PUT64LE, the eight bytes `VAL[8i+7 : 8i]`. -/
def Obligations.Put64leResult : Prop :=
  ∀ (s : State) (B : Buffer), s.off.toNat + 8 ≤ bufSize B →
    ∃ t, exec (put64le B) s = .next t ∧
      BytesStored s t B s.off.toNat [s.val.extractLsb' 0 8, s.val.extractLsb' 8 8, s.val.extractLsb' 16 8, s.val.extractLsb' 24 8,
        s.val.extractLsb' 32 8, s.val.extractLsb' 40 8, s.val.extractLsb' 48 8, s.val.extractLsb' 56 8] ∧
      Completed s t ∧ KeepsHash s t ∧ KeepsVal s t ∧ KeepsPlan s t

/-- R125: PUT64BE, the eight bytes `VAL[63-8i : 56-8i]`. -/
def Obligations.Put64beResult : Prop :=
  ∀ (s : State) (B : Buffer), s.off.toNat + 8 ≤ bufSize B →
    ∃ t, exec (put64be B) s = .next t ∧
      BytesStored s t B s.off.toNat [s.val.extractLsb' 56 8, s.val.extractLsb' 48 8, s.val.extractLsb' 40 8, s.val.extractLsb' 32 8,
        s.val.extractLsb' 24 8, s.val.extractLsb' 16 8, s.val.extractLsb' 8 8, s.val.extractLsb' 0 8] ∧
      Completed s t ∧ KeepsHash s t ∧ KeepsVal s t ∧ KeepsPlan s t

/-- R71: the same bytes seen through the other codec functions: after `put_u64_le` or `put_u64_be`, `get_u32_le` and `get_u32_be` at the two halves,
in the order of the put and in the other order; two `put_u32_le` for one `put_u64_le`; and of two overlapping writes the later wins (every put is a
`memWrite` of its bytes). -/
def Obligations.MixedWidthsAgree : Prop :=
  ∀ (s : State) (B : Buffer) (off : Nat) (v : DWord),
    getU32Le (putU64Le s B off v) (bufferSpace B) off = some (v.extractLsb' 0 32) ∧
    getU32Le (putU64Le s B off v) (bufferSpace B) (off + 4) = some (v.extractLsb' 32 32) ∧
    getU32Be (putU64Be s B off v) (bufferSpace B) off = some (v.extractLsb' 32 32) ∧
    getU32Be (putU64Be s B off v) (bufferSpace B) (off + 4) = some (v.extractLsb' 0 32) ∧
    getU32Be (putU64Le s B off v) (bufferSpace B) off = some (reverseBytes (v.extractLsb' 0 32)) ∧
    getU32Be (putU64Le s B off v) (bufferSpace B) (off + 4) = some (reverseBytes (v.extractLsb' 32 32)) ∧
    getU32Le (putU64Be s B off v) (bufferSpace B) off = some (reverseBytes (v.extractLsb' 32 32)) ∧
    getU32Le (putU64Be s B off v) (bufferSpace B) (off + 4) = some (reverseBytes (v.extractLsb' 0 32)) ∧
    (∀ a, bufByte (putU32Le (putU32Le s B off (v.extractLsb' 0 32)) B (off + 4) (v.extractLsb' 32 32)) B a = bufByte (putU64Le s B off v) B a) ∧
    (∀ (off1 off2 : Nat) (bs1 bs2 : List Byte) (a : Nat), bufByte (memWrite (memWrite s B off1 bs1) B off2 bs2) B a =
      if off2 ≤ a ∧ a < off2 + bs2.length then bufByte (memWrite s B off2 bs2) B a else bufByte (memWrite s B off1 bs1) B a)

/-- R160: INIT completes in every state; `H` becomes `IV` and nothing else changes; its word is 0x00000006, and one with other bits 5:4 is illegal. -/
def Obligations.InitResult : Prop :=
  ∀ s : State, ∃ t, exec .init s = .next t ∧ t.hash = ⟨0x67452301, 0xEFCDAB89, 0x98BADCFE, 0x10325476⟩ ∧
    Completed s t ∧ KeepsVal s t ∧ KeepsPlan s t ∧ KeepsTail s t ∧ KeepsDig s t ∧
    decode 0x00000006 = .ok .init ∧ ∀ w : Word, w.extractLsb' 0 4 = 0x6 → w.extractLsb' 4 2 ≠ 0 → ∃ e, decode w = .error e

/-- R147: PLAN completes when the leftover bytes can be read: `NBLK`, `PLANINFO`, and its frame. The contents of `TAIL` are `PlanTailLayout`. -/
def Obligations.PlanNumbers : Prop :=
  ∀ s : State, Readable s .msg (s.len.toNat - s.len.toNat % 64) (s.len.toNat % 64) →
    ∃ t, exec .plan s = .next t ∧ t.nblk.toNat = s.len.toNat / 64 ∧
      t.planinfo.word.toNat = s.len.toNat % 64 + 2 ^ 8 * (64 - s.len.toNat % 64) +
        2 ^ 16 * (if s.len.toNat % 64 < 56 then 55 - s.len.toNat % 64 else 119 - s.len.toNat % 64) +
        2 ^ 24 * (if s.len.toNat % 64 < 56 then 2 else 3) ∧
      Completed s t ∧ KeepsHash s t ∧ KeepsVal s t ∧ KeepsDig s t

/-- R144, R145, R148: what every byte of `TAIL` is after PLAN: the leftover message bytes, the marker at `lengthMod64`, the bit length modulo 2^64 in
the last eight bytes of the last tail block, 0x00 everywhere else. -/
def Obligations.PlanTailLayout : Prop :=
  ∀ s : State, Readable s .msg (s.len.toNat - s.len.toNat % 64) (s.len.toNat % 64) →
    ∃ t, exec .plan s = .next t ∧ ∀ k, some (Memory.read t.tail k) =
      if k < s.len.toNat % 64 then memByte s .msg (s.len.toNat - s.len.toNat % 64 + k)
      else if k = s.len.toNat % 64 then some 0x80
      else
        let trailer := if s.len.toNat % 64 < 56 then 56 else 120
        if trailer ≤ k ∧ k < trailer + 8 then some (BitVec.ofNat 8 (s.len.toNat * 8 % 2 ^ 64 / 2 ^ (8 * (k - trailer))))
        else some 0x00

/-- R178: BLOCK of `MSG`, `TAIL`, in bounds and readable, completes: `H` becomes the compression of the 64 bytes at `OFF`, nothing else changes. -/
def Obligations.BlockResult : Prop :=
  ∀ (s : State), (s.off.toNat + 64 ≤ s.len.toNat → Readable s .msg s.off.toNat 64 →
      ∃ t blk, exec .blockMsg s = .next t ∧ blk.length = 64 ∧ BytesAt s .msg s.off.toNat blk ∧ t.hash = compress s.hash blk ∧
        Completed s t ∧ KeepsVal s t ∧ KeepsPlan s t ∧ KeepsTail s t ∧ KeepsDig s t) ∧
    (s.off.toNat + 64 ≤ 128 →
      ∃ t blk, exec .blockTail s = .next t ∧ blk.length = 64 ∧ BytesAt s .tail s.off.toNat blk ∧ t.hash = compress s.hash blk ∧
        Completed s t ∧ KeepsVal s t ∧ KeepsPlan s t ∧ KeepsTail s t ∧ KeepsDig s t)

/-- R190, R191: DIGEST completes in every state: `DIG[4i + j] = H[i][8j+7 : 8j]`, nothing else changes; its word is 0x00000009, and one with other
bits 5:4 is illegal. -/
def Obligations.DigestResult : Prop :=
  ∀ s : State, ∃ t, exec .digest s = .next t ∧
    (∀ i < 4, ∀ j < 4, Memory.read t.dig (4 * i + j) = (([s.hash.h0, s.hash.h1, s.hash.h2, s.hash.h3] : List Word).getD i 0).extractLsb' (8 * j) 8) ∧
    (∀ a, 16 ≤ a → Memory.read t.dig a = Memory.read s.dig a) ∧
    Completed s t ∧ KeepsHash s t ∧ KeepsVal s t ∧ KeepsPlan s t ∧ KeepsTail s t ∧
    decode 0x00000009 = .ok .digest ∧ ∀ w : Word, w.extractLsb' 0 4 = 0x9 → w.extractLsb' 4 2 ≠ 0 → ∃ e, decode w = .error e

/-- R205: HASH completes when the bytes of the message can be read, and `DIG` is the MD5 of them; `H` is the last hash state, and `VAL`, and
everything outside `TAIL`, `NBLK`, `PLANINFO`, `H`, `DIG`, is as before. -/
def Obligations.HashIsMd5 : Prop :=
  ∀ (s : State) (m : List Byte), m.length = s.len.toNat → BytesAt s .msg 0 m →
    ∃ t, exec .hash s = .next t ∧ (∀ i < 16, Memory.read t.dig i = (md5 m).getD i 0) ∧ t.hash = md5State m ∧
      (∀ a, 16 ≤ a → Memory.read t.dig a = Memory.read s.dig a) ∧ Completed s t ∧ KeepsVal s t

/-- R200: HASH leaves the `TAIL`, `NBLK` and `PLANINFO` of PLAN. -/
def Obligations.HashLeavesPlan : Prop :=
  ∀ s : State, Readable s .msg 0 s.len.toNat →
    ∃ t u, exec .hash s = .next t ∧ exec .plan s = .next u ∧ t.status.done = true ∧ u.status.done = true ∧
      t.tail = u.tail ∧ t.nblk = u.nblk ∧ t.planinfo = u.planinfo

/-- R202: HASH is the same as the host script of the component commands, on an engine that is not busy and not stopped, with a message that
holds still and is as long as declared; the two differ in `OFF` only. -/
def Obligations.HashIsComponentScript : Prop :=
  ∀ s : State, s.status.busy = false → s.status.err = 0 → s.msgOld = [] → s.len.toNat ≤ s.msg.extent →
    ∃ t u, componentRun s = .next t ∧ issue .hash s = .next u ∧ t.tail = u.tail ∧ t.nblk = u.nblk ∧ t.planinfo = u.planinfo ∧
      t.hash = u.hash ∧ t.dig = u.dig ∧ t.status = u.status ∧ t.val = u.val ∧ t.len = u.len ∧ t.errinfo = u.errinfo ∧ u.off = s.off

/-- R201, R175: the sequencer, moving round by round through PLAN, INIT, BODY, TAIL1, TAIL2, FORMAT, takes `3 + 64 * (NBLK + CHUNKS - 1)` moves to
IDLE and ends with what HASH as one atomic step leaves; where the read port reports an error, both meet it. What one move is, is the model's (log 8). -/
def Obligations.SequencerRefinesHash : Prop :=
  ∀ s : State,
    (runHash s = none → seqRun (3 + 64 * (blockCount s.len.toNat + chunkCount s.len.toNat - 1)) (seqStart s) = none) ∧
    (∀ u, runHash s = some u → ∃ t, seqRun (3 + 64 * (blockCount s.len.toNat + chunkCount s.len.toNat - 1)) (seqStart s) = some t ∧
      t.seq.phase = .idle ∧ t.hash = u.hash ∧ t.tail = u.tail ∧ t.nblk = u.nblk ∧ t.planinfo = u.planinfo ∧ t.dig = u.dig ∧ t.val = u.val)

-- THE COMPRESSION

/-- R173: one round. -/
def Obligations.RoundRotatesRoles : Prop :=
  ∀ (w : Vector Word 16) (x : Work) (i : Nat), i < 64 →
    (round w x i).a = x.d ∧ (round w x i).c = x.b ∧ (round w x i).d = x.c ∧
    (round w x i).b = x.b + rotl32 (x.a +
      (if i < 16 then (x.b &&& x.c) ||| (~~~x.b &&& x.d) else if i < 32 then (x.d &&& x.b) ||| (~~~x.d &&& x.c)
       else if i < 48 then x.b ^^^ x.c ^^^ x.d else x.c ^^^ (x.b ||| ~~~x.d)) + tableK i + w.toList.getD (tableG i) 0) (tableS i)

/-- R162, R163, R174, R175: `compress` is the word decode, the load of the working variables, rounds 0 to 63 in this order (each the `round` of
`RoundRotatesRoles`), and the add-back. -/
def Obligations.CompressFollowsRounds : Prop :=
  ∀ (h : HashState) (blk : List Byte), blk.length = 64 →
    (∀ i < 16, ((blockWords blk).toList.getD i 0).toNat =
      (blk.getD (4 * i) 0).toNat + 2 ^ 8 * (blk.getD (4 * i + 1) 0).toNat + 2 ^ 16 * (blk.getD (4 * i + 2) 0).toNat +
        2 ^ 24 * (blk.getD (4 * i + 3) 0).toNat) ∧
    ∃ x : Nat → Work, x 0 = ⟨h.h0, h.h1, h.h2, h.h3⟩ ∧ (∀ i < 64, x (i + 1) = round (blockWords blk) (x i) i) ∧
      compress h blk = ⟨h.h0 + (x 64).a, h.h1 + (x 64).b, h.h2 + (x 64).c, h.h3 + (x 64).d⟩

/-- R170, R171: the rotation amounts and the word indices by their formulas, and that no amount is 0 or 32. -/
def Obligations.TableFormulas : Prop :=
  ∀ i < 64,
    tableG i = (if i < 16 then i else if i < 32 then (5 * i + 1) % 16 else if i < 48 then (3 * i + 5) % 16 else 7 * i % 16) ∧
    tableS i = ((if i < 16 then [7, 12, 17, 22] else if i < 32 then [5, 9, 14, 20] else if i < 48 then [4, 11, 16, 23]
      else [6, 10, 15, 21]) : List Nat).getD (i % 4) 0 ∧
    4 ≤ tableS i ∧ tableS i ≤ 23

/-- R172: left-rotate over the natural numbers, by 1 to 31; by 0 it is the identity, and the amount is taken modulo 32. -/
def Obligations.RotateWraps : Prop :=
  ∀ (x : Word) (n : Nat),
    (1 ≤ n → n ≤ 31 → (rotl32 x n).toNat = x.toNat * 2 ^ n % 2 ^ 32 + x.toNat / 2 ^ (32 - n)) ∧ rotl32 x 0 = x ∧ rotl32 x n = rotl32 x (n % 32)

/-- R179: the hand-unrolled form of the 64 rounds is the same function. -/
def Obligations.UnrolledRoundsAgree : Prop :=
  ∀ (w : Vector Word 16) (x : Work), (List.range 64).foldl (unrolledStep w) x = rounds w x

/-- R176: a block's result depends on the hash state before it and on its 64 bytes, and on nothing else: two BLOCK commands, of either buffer, in
two states with the same hash state and the same 64 bytes at their offsets, leave the same hash state. -/
def Obligations.BlockDependsOnBytesOnly : Prop :=
  ∀ (s s' : State) (S S' : Space), S ≠ .dig → S' ≠ .dig → s.hash = s'.hash →
    s.off.toNat + 64 ≤ spaceSize s S → s'.off.toNat + 64 ≤ spaceSize s' S' → Readable s S s.off.toNat 64 → Readable s' S' s'.off.toNat 64 →
    (∀ i < 64, memByte s S (s.off.toNat + i) = memByte s' S' (s'.off.toNat + i)) →
    ∃ t t', exec (block S) s = .next t ∧ exec (block S') s' = .next t' ∧ t.hash = t'.hash

-- THE FAULTS

/-- R223: out of bounds, over the natural numbers: BOUNDS, and nothing but `STATUS` and `ERRINFO` changes. That `PEND`, `A` to `D` and `W` too keep
their values is the model's choice between R223, R226 and R37 to R39 (log 7). -/
def Obligations.BoundsFault : Prop :=
  ∀ (s : State) (i : Instr) (S : Space) (n : Nat), access i = some (S, n) → spaceSize s S < s.off.toNat + n →
    ∃ t, exec i s = .next t ∧ FaultEntered 2 s t ∧ KeepsHash s t ∧ KeepsVal s t ∧ KeepsPlan s t ∧ KeepsTail s t ∧ KeepsDig s t ∧ KeepsInternal s t

/-- R224: a message shorter than declared, holding still: MSG_FAULT when a byte at or beyond `MSG_EXTENT` is read, and every host-visible register
and byte outside the command's write set is unchanged; only then, so never when `LEN <= MSG_EXTENT`. Nothing is said of `PEND`, `A` to `D` and `W`,
which the model leaves free at MSG_FAULT (log 7). -/
def Obligations.MsgFault : Prop :=
  ∀ s : State, s.msgOld = [] →
    (∀ i, (i = .get32leMsg ∨ i = .get32beMsg) → s.off.toNat + 4 ≤ s.len.toNat → s.msg.extent < s.off.toNat + 4 →
      ∃ t, exec i s = .next t ∧ FaultEntered 3 s t ∧ KeepsHash s t ∧ KeepsPlan s t ∧ KeepsTail s t ∧ KeepsDig s t) ∧
    (s.off.toNat + 64 ≤ s.len.toNat → s.msg.extent < s.off.toNat + 64 →
      ∃ t, exec .blockMsg s = .next t ∧ FaultEntered 3 s t ∧ KeepsVal s t ∧ KeepsPlan s t ∧ KeepsTail s t ∧ KeepsDig s t) ∧
    (s.len.toNat % 64 ≠ 0 → s.msg.extent < s.len.toNat →
      ∃ t, exec .plan s = .next t ∧ FaultEntered 3 s t ∧ KeepsHash s t ∧ KeepsVal s t ∧ KeepsDig s t) ∧
    (s.msg.extent < s.len.toNat → ∃ t, exec .hash s = .next t ∧ FaultEntered 3 s t ∧ KeepsVal s t) ∧
    (s.len.toNat ≤ s.msg.extent → s.status.err = 0 → ∀ i t, exec i s = .next t → t.status.err ≠ 3)

/-- R220: a legal command whose accesses are in bounds, on a message with `LEN <= MSG_EXTENT`, completes. -/
def Obligations.GoodCommandCompletes : Prop :=
  ∀ (s : State) (i : Instr), s.msgOld = [] → s.len.toNat ≤ s.msg.extent →
    (∀ S n, access i = some (S, n) → s.off.toNat + n ≤ spaceSize s S) → ∃ t, exec i s = .next t ∧ Completed s t

/-- R69, C10: a read of zero bytes cannot fault, so PLAN of a length that is a multiple of 64 completes whatever the extent. -/
def Obligations.PlanReadsNothingAtMultipleOf64 : Prop :=
  ∀ s : State, s.len.toNat % 64 = 0 → ∃ t, exec .plan s = .next t ∧ Completed s t

/-- R256: a byte of the message the engine reads is the byte of one of the versions the message has had since the command was accepted. -/
def Obligations.ReadsOldOrNewByte : Prop :=
  ∀ (s : State) (off : Nat),
    (∀ b, memByte s .msg off = some b → ∃ v ∈ s.msg :: s.msgOld, off < v.extent ∧ b = Memory.read v.cells off) ∧
    (memByte s .msg off = none → ∃ v ∈ s.msg :: s.msgOld, v.extent ≤ off)

/-- R256: the host changes one byte of a message no one has changed since acceptance: while a command is in flight the engine then reads the old or
the new value of that byte and every other byte as it was; when none is, the new value (and there are no versions to choose from). -/
def Obligations.ChangedByteReadsOldOrNew : Prop :=
  ∀ (s : State) (off : Nat) (b : Byte), s.msgOld = [] → off < s.msg.extent →
    (∀ k, k ≠ off → memByte (storeMsg off b s) .msg k = memByte s .msg k) ∧
    (s.status.busy = true → memByte (storeMsg off b s) .msg off = memByte s .msg off ∨ memByte (storeMsg off b s) .msg off = some b) ∧
    (s.status.busy = false → memByte (storeMsg off b s) .msg off = some b)

-- THE WHOLE MACHINE

/-- At reset the invariant holds. -/
def Obligations.ResetMeetsInvariant : Prop := Inv State.reset

/-- Every step keeps the invariant: canonical memories within their sizes, the fault codes, `SEQ` idle between steps, `NBLK` below 2^58 and
`PLANINFO` a plan unless MSG_FAULT left them unspecified. -/
def Obligations.StepKeepsInvariant : Prop :=
  ∀ s t : State, Inv s → step s = .next t → Inv t

/-- R227: a stopped engine stays stopped, with its fault code and `ERRINFO`, until `Reset`. -/
def Obligations.StoppedUntilReset : Prop :=
  ∀ s t : State, Stopped s → ¬ ResetNext s → step s = .next t →
    Stopped t ∧ t.status.err = s.status.err ∧ t.errinfo = s.errinfo ∧ t.hash = s.hash ∧ t.tail = s.tail ∧ t.dig = s.dig ∧
      t.nblk = s.nblk ∧ t.planinfo = s.planinfo

/-- R34: `OVR` is sticky, only `Reset` clears it; and it is set by a write of `CMD`, `LEN`, `OFF` or `VAL` while busy, and by nothing else. -/
def Obligations.OverrunIsSticky : Prop :=
  ∀ s t : State, ¬ ResetNext s → step s = .next t →
    (t.status.ovr = true ↔ s.status.ovr = true ∨
      (s.status.busy = true ∧ ∃ reg v rest, s.inbox = .write reg v :: rest ∧ (reg = 0x00 ∨ reg = 0x03 ∨ reg = 0x04 ∨ reg = 0x05)))

/-- R23: the hash state changes in a step only if the step executes INIT, BLOCK or HASH, or is a `Reset`. -/
def Obligations.HashStateWriters : Prop :=
  ∀ s t : State, step s = .next t → t.hash ≠ s.hash →
    ResetNext s ∨ (EngineNext s ∧ s.status.busy = true ∧ ∃ i, decode s.pend = .ok i ∧ writesHash i = true)

/-- R24, R25, R70: no command writes `LEN`, `OFF` or the message, whether it completes or faults. -/
def Obligations.EngineNeverWritesOperands : Prop :=
  ∀ (s : State) (i : Instr), ∃ t, exec i s = .next t ∧ t.len = s.len ∧ t.off = s.off ∧ t.msg = s.msg

/-- R253: a step of a busy engine ends the command in one of two ways: `DONE = 1` with `ERR` as before (0), or `DONE = 0` and a fault code. -/
def Obligations.CommandEndsInOneOfTwoWays : Prop :=
  ∀ s t : State, EngineNext s → s.status.busy = true → s.status.err = 0 → step s = .next t →
    t.status.busy = false ∧
      ((t.status.done = true ∧ t.status.err = 0) ∨ (t.status.done = false ∧ t.status.err ≠ 0 ∧ t.errinfo = s.pend))

/-- R38, R39, R43: no command reads what an earlier one left in `A` to `D`, `W` or `SEQ`: two states that differ in them only give the same
host-visible state. -/
def Obligations.InternalRegistersNeverRead : Prop :=
  ∀ (s : State) (i : Instr) (x : Work) (w : Vector Word 16) (q : Seq),
    ∃ t t', exec i s = .next t ∧ exec i { s with work := x, words := w, seq := q } = .next t' ∧ SameVisible t t' ∧ t'.msg = t.msg

/-- R204, R203: the result of HASH is a function of `LEN` and the message bytes below it: nothing an earlier command left, and no byte at or
beyond `LEN`, has an influence. -/
def Obligations.HashOwesNothing : Prop :=
  ∀ s s' : State, s.len = s'.len → s.msgOld = [] → s'.msgOld = [] → s.len.toNat ≤ s.msg.extent → s'.len.toNat ≤ s'.msg.extent →
    (∀ k < s.len.toNat, Memory.read s.msg.cells k = Memory.read s'.msg.cells k) →
    ∃ t t', exec .hash s = .next t ∧ exec .hash s' = .next t' ∧ t.hash = t'.hash ∧ t.tail = t'.tail ∧ t.nblk = t'.nblk ∧
      t.planinfo = t'.planinfo ∧ (∀ a < 16, Memory.read t.dig a = Memory.read t'.dig a)

/-- R254: a write of `CMD`, `LEN`, `OFF` or `VAL` while busy is dropped and sets `OVR`; by any host write the command in flight is not disturbed: it
ends with the same result, but for `OVR`. -/
def Obligations.BusyWriteDoesNotDisturb : Prop :=
  ∀ (s : State) (reg : Nat) (v : DWord) (i : Instr), s.status.busy = true →
    (reg = 0x00 ∨ reg = 0x03 ∨ reg = 0x04 ∨ reg = 0x05 → hostWrite reg v s = { s with status := { s.status with ovr := true } }) ∧
    ∃ t t', exec i s = .next t ∧ exec i (hostWrite reg v s) = .next t' ∧ SameVisible { t with status := t'.status } t' ∧
      t'.status.busy = t.status.busy ∧ t'.status.done = t.status.done ∧ t'.status.err = t.status.err

/-- R145: the trailer value is `{L[60:0], 0b000}`: exact below 2^61, the three top bits lost above. -/
def Obligations.BitLengthWraps : Prop :=
  ∀ L : DWord, bitLength L.toNat = (L.extractLsb' 0 61 ++ (0 : BitVec 3) : BitVec 64) ∧
    (L.toNat < 2 ^ 61 → (bitLength L.toNat).toNat = 8 * L.toNat)

/-- R148, R205: `zeros` is the least number of zero bytes that brings the padded length to a multiple of 64; the trailer ends the last tail block. -/
def Obligations.PaddingReachesMultipleOf64 : Prop :=
  ∀ L : Nat, (L + 1 + zeros L + 8) % 64 = 0 ∧ (∀ z, (L + 1 + z + 8) % 64 = 0 → zeros L ≤ z) ∧
    L + 1 + zeros L + 8 = 64 * (blockCount L + chunkCount L - 1) ∧ trailerOffset L = (if chunkCount L = 3 then 120 else 56)
end

