-- ==== Sys2Proof/Laws/State.lean ====
section
/-! SUPPORT. One lemma per field per named operation on State, true by rfl: no later proof unfolds a record update. -/

namespace Sys2Proof.Machine

@[simp] theorem scrubInternal_hash (s : State) : (scrubInternal s).hash = s.hash := rfl
@[simp] theorem scrubInternal_len (s : State) : (scrubInternal s).len = s.len := rfl
@[simp] theorem scrubInternal_off (s : State) : (scrubInternal s).off = s.off := rfl
@[simp] theorem scrubInternal_val (s : State) : (scrubInternal s).val = s.val := rfl
@[simp] theorem scrubInternal_tail (s : State) : (scrubInternal s).tail = s.tail := rfl
@[simp] theorem scrubInternal_dig (s : State) : (scrubInternal s).dig = s.dig := rfl
@[simp] theorem scrubInternal_nblk (s : State) : (scrubInternal s).nblk = s.nblk := rfl
@[simp] theorem scrubInternal_planinfo (s : State) : (scrubInternal s).planinfo = s.planinfo := rfl
@[simp] theorem scrubInternal_status (s : State) : (scrubInternal s).status = s.status := rfl
@[simp] theorem scrubInternal_errinfo (s : State) : (scrubInternal s).errinfo = s.errinfo := rfl
@[simp] theorem scrubInternal_pend (s : State) : (scrubInternal s).pend = freeWord s.draws 0x24 := rfl
@[simp] theorem scrubInternal_work (s : State) : (scrubInternal s).work = freeWork s.draws := rfl
@[simp] theorem scrubInternal_words (s : State) : (scrubInternal s).words = freeWords s.draws := rfl
@[simp] theorem scrubInternal_seq (s : State) : (scrubInternal s).seq = s.seq := rfl
@[simp] theorem scrubInternal_msg (s : State) : (scrubInternal s).msg = s.msg := rfl
@[simp] theorem scrubInternal_msgOld (s : State) : (scrubInternal s).msgOld = s.msgOld := rfl
@[simp] theorem scrubInternal_inbox (s : State) : (scrubInternal s).inbox = s.inbox := rfl
@[simp] theorem scrubInternal_lastRead (s : State) : (scrubInternal s).lastRead = s.lastRead := rfl
@[simp] theorem scrubInternal_draws (s : State) : (scrubInternal s).draws = s.draws + 1 := rfl

@[simp] theorem finish_hash (s : State) : (finish s).hash = s.hash := rfl
@[simp] theorem finish_len (s : State) : (finish s).len = s.len := rfl
@[simp] theorem finish_off (s : State) : (finish s).off = s.off := rfl
@[simp] theorem finish_val (s : State) : (finish s).val = s.val := rfl
@[simp] theorem finish_tail (s : State) : (finish s).tail = s.tail := rfl
@[simp] theorem finish_dig (s : State) : (finish s).dig = s.dig := rfl
@[simp] theorem finish_nblk (s : State) : (finish s).nblk = s.nblk := rfl
@[simp] theorem finish_planinfo (s : State) : (finish s).planinfo = s.planinfo := rfl
@[simp] theorem finish_status (s : State) : (finish s).status = ⟨false, true, s.status.ovr, s.status.err⟩ := rfl
@[simp] theorem finish_errinfo (s : State) : (finish s).errinfo = s.errinfo := rfl
@[simp] theorem finish_pend (s : State) : (finish s).pend = freeWord s.draws 0x24 := rfl
@[simp] theorem finish_work (s : State) : (finish s).work = freeWork s.draws := rfl
@[simp] theorem finish_words (s : State) : (finish s).words = freeWords s.draws := rfl
@[simp] theorem finish_seq (s : State) : (finish s).seq = ⟨.idle, 0, 0⟩ := rfl
@[simp] theorem finish_msg (s : State) : (finish s).msg = s.msg := rfl
@[simp] theorem finish_msgOld (s : State) : (finish s).msgOld = [] := rfl
@[simp] theorem finish_inbox (s : State) : (finish s).inbox = s.inbox := rfl
@[simp] theorem finish_lastRead (s : State) : (finish s).lastRead = s.lastRead := rfl
@[simp] theorem finish_draws (s : State) : (finish s).draws = s.draws + 1 := rfl

@[simp] theorem raiseFault_hash (c : BitVec 4) (s : State) : (raiseFault c s).hash = s.hash := rfl
@[simp] theorem raiseFault_len (c : BitVec 4) (s : State) : (raiseFault c s).len = s.len := rfl
@[simp] theorem raiseFault_off (c : BitVec 4) (s : State) : (raiseFault c s).off = s.off := rfl
@[simp] theorem raiseFault_val (c : BitVec 4) (s : State) : (raiseFault c s).val = s.val := rfl
@[simp] theorem raiseFault_tail (c : BitVec 4) (s : State) : (raiseFault c s).tail = s.tail := rfl
@[simp] theorem raiseFault_dig (c : BitVec 4) (s : State) : (raiseFault c s).dig = s.dig := rfl
@[simp] theorem raiseFault_nblk (c : BitVec 4) (s : State) : (raiseFault c s).nblk = s.nblk := rfl
@[simp] theorem raiseFault_planinfo (c : BitVec 4) (s : State) : (raiseFault c s).planinfo = s.planinfo := rfl
@[simp] theorem raiseFault_status (c : BitVec 4) (s : State) : (raiseFault c s).status = ⟨false, false, s.status.ovr, c⟩ := rfl
@[simp] theorem raiseFault_errinfo (c : BitVec 4) (s : State) : (raiseFault c s).errinfo = s.pend := rfl
@[simp] theorem raiseFault_pend (c : BitVec 4) (s : State) : (raiseFault c s).pend = s.pend := rfl
@[simp] theorem raiseFault_work (c : BitVec 4) (s : State) : (raiseFault c s).work = s.work := rfl
@[simp] theorem raiseFault_words (c : BitVec 4) (s : State) : (raiseFault c s).words = s.words := rfl
@[simp] theorem raiseFault_seq (c : BitVec 4) (s : State) : (raiseFault c s).seq = ⟨.idle, 0, 0⟩ := rfl
@[simp] theorem raiseFault_msg (c : BitVec 4) (s : State) : (raiseFault c s).msg = s.msg := rfl
@[simp] theorem raiseFault_msgOld (c : BitVec 4) (s : State) : (raiseFault c s).msgOld = [] := rfl
@[simp] theorem raiseFault_inbox (c : BitVec 4) (s : State) : (raiseFault c s).inbox = s.inbox := rfl
@[simp] theorem raiseFault_lastRead (c : BitVec 4) (s : State) : (raiseFault c s).lastRead = s.lastRead := rfl
@[simp] theorem raiseFault_draws (c : BitVec 4) (s : State) : (raiseFault c s).draws = s.draws := rfl

@[simp] theorem clobberPlan_hash (s : State) : (clobberPlan s).hash = s.hash := rfl
@[simp] theorem clobberPlan_len (s : State) : (clobberPlan s).len = s.len := rfl
@[simp] theorem clobberPlan_off (s : State) : (clobberPlan s).off = s.off := rfl
@[simp] theorem clobberPlan_val (s : State) : (clobberPlan s).val = s.val := rfl
@[simp] theorem clobberPlan_tail (s : State) : (clobberPlan s).tail = freeTail s.draws := rfl
@[simp] theorem clobberPlan_dig (s : State) : (clobberPlan s).dig = s.dig := rfl
@[simp] theorem clobberPlan_nblk (s : State) : (clobberPlan s).nblk = Config.freeBits s.draws 0x06 := rfl
@[simp] theorem clobberPlan_planinfo (s : State) : (clobberPlan s).planinfo = freePlanInfo s.draws := rfl
@[simp] theorem clobberPlan_status (s : State) : (clobberPlan s).status = s.status := rfl
@[simp] theorem clobberPlan_errinfo (s : State) : (clobberPlan s).errinfo = s.errinfo := rfl
@[simp] theorem clobberPlan_pend (s : State) : (clobberPlan s).pend = s.pend := rfl
@[simp] theorem clobberPlan_work (s : State) : (clobberPlan s).work = s.work := rfl
@[simp] theorem clobberPlan_words (s : State) : (clobberPlan s).words = s.words := rfl
@[simp] theorem clobberPlan_seq (s : State) : (clobberPlan s).seq = s.seq := rfl
@[simp] theorem clobberPlan_msg (s : State) : (clobberPlan s).msg = s.msg := rfl
@[simp] theorem clobberPlan_msgOld (s : State) : (clobberPlan s).msgOld = s.msgOld := rfl
@[simp] theorem clobberPlan_inbox (s : State) : (clobberPlan s).inbox = s.inbox := rfl
@[simp] theorem clobberPlan_lastRead (s : State) : (clobberPlan s).lastRead = s.lastRead := rfl
@[simp] theorem clobberPlan_draws (s : State) : (clobberPlan s).draws = s.draws := rfl

@[simp] theorem clobber_len (ws : WriteSet) (s : State) : (clobber ws s).len = s.len := by cases ws <;> rfl
@[simp] theorem clobber_off (ws : WriteSet) (s : State) : (clobber ws s).off = s.off := by cases ws <;> rfl
@[simp] theorem clobber_status (ws : WriteSet) (s : State) : (clobber ws s).status = s.status := by cases ws <;> rfl
@[simp] theorem clobber_errinfo (ws : WriteSet) (s : State) : (clobber ws s).errinfo = s.errinfo := by cases ws <;> rfl
@[simp] theorem clobber_pend (ws : WriteSet) (s : State) : (clobber ws s).pend = s.pend := by cases ws <;> rfl
@[simp] theorem clobber_work (ws : WriteSet) (s : State) : (clobber ws s).work = s.work := by cases ws <;> rfl
@[simp] theorem clobber_words (ws : WriteSet) (s : State) : (clobber ws s).words = s.words := by cases ws <;> rfl
@[simp] theorem clobber_seq (ws : WriteSet) (s : State) : (clobber ws s).seq = s.seq := by cases ws <;> rfl
@[simp] theorem clobber_msg (ws : WriteSet) (s : State) : (clobber ws s).msg = s.msg := by cases ws <;> rfl
@[simp] theorem clobber_msgOld (ws : WriteSet) (s : State) : (clobber ws s).msgOld = s.msgOld := by cases ws <;> rfl
@[simp] theorem clobber_inbox (ws : WriteSet) (s : State) : (clobber ws s).inbox = s.inbox := by cases ws <;> rfl
@[simp] theorem clobber_lastRead (ws : WriteSet) (s : State) : (clobber ws s).lastRead = s.lastRead := by cases ws <;> rfl
@[simp] theorem clobber_draws (ws : WriteSet) (s : State) : (clobber ws s).draws = s.draws := by cases ws <;> rfl

@[simp] theorem raiseMsgFault_hash (ws : WriteSet) (s : State) : (raiseMsgFault ws s).hash = (clobber ws s).hash := by cases ws <;> rfl
@[simp] theorem raiseMsgFault_len (ws : WriteSet) (s : State) : (raiseMsgFault ws s).len = s.len := by cases ws <;> rfl
@[simp] theorem raiseMsgFault_off (ws : WriteSet) (s : State) : (raiseMsgFault ws s).off = s.off := by cases ws <;> rfl
@[simp] theorem raiseMsgFault_val (ws : WriteSet) (s : State) : (raiseMsgFault ws s).val = (clobber ws s).val := by cases ws <;> rfl
@[simp] theorem raiseMsgFault_tail (ws : WriteSet) (s : State) : (raiseMsgFault ws s).tail = (clobber ws s).tail := by cases ws <;> rfl
@[simp] theorem raiseMsgFault_dig (ws : WriteSet) (s : State) : (raiseMsgFault ws s).dig = (clobber ws s).dig := by cases ws <;> rfl
@[simp] theorem raiseMsgFault_nblk (ws : WriteSet) (s : State) : (raiseMsgFault ws s).nblk = (clobber ws s).nblk := by cases ws <;> rfl
@[simp] theorem raiseMsgFault_planinfo (ws : WriteSet) (s : State) : (raiseMsgFault ws s).planinfo = (clobber ws s).planinfo := by cases ws <;> rfl
@[simp] theorem raiseMsgFault_status (ws : WriteSet) (s : State) : (raiseMsgFault ws s).status = ⟨false, false, s.status.ovr, errMsgFault⟩ := by cases ws <;> rfl
@[simp] theorem raiseMsgFault_errinfo (ws : WriteSet) (s : State) : (raiseMsgFault ws s).errinfo = s.pend := by cases ws <;> rfl
@[simp] theorem raiseMsgFault_pend (ws : WriteSet) (s : State) : (raiseMsgFault ws s).pend = freeWord s.draws 0x24 := by cases ws <;> rfl
@[simp] theorem raiseMsgFault_work (ws : WriteSet) (s : State) : (raiseMsgFault ws s).work = freeWork s.draws := by cases ws <;> rfl
@[simp] theorem raiseMsgFault_words (ws : WriteSet) (s : State) : (raiseMsgFault ws s).words = freeWords s.draws := by cases ws <;> rfl
@[simp] theorem raiseMsgFault_seq (ws : WriteSet) (s : State) : (raiseMsgFault ws s).seq = ⟨.idle, 0, 0⟩ := by cases ws <;> rfl
@[simp] theorem raiseMsgFault_msg (ws : WriteSet) (s : State) : (raiseMsgFault ws s).msg = s.msg := by cases ws <;> rfl
@[simp] theorem raiseMsgFault_msgOld (ws : WriteSet) (s : State) : (raiseMsgFault ws s).msgOld = [] := by cases ws <;> rfl
@[simp] theorem raiseMsgFault_inbox (ws : WriteSet) (s : State) : (raiseMsgFault ws s).inbox = s.inbox := by cases ws <;> rfl
@[simp] theorem raiseMsgFault_lastRead (ws : WriteSet) (s : State) : (raiseMsgFault ws s).lastRead = s.lastRead := by cases ws <;> rfl
@[simp] theorem raiseMsgFault_draws (ws : WriteSet) (s : State) : (raiseMsgFault ws s).draws = s.draws + 1 := by cases ws <;> rfl

@[simp] theorem resetAction_hash (s : State) : (resetAction s).hash = HashState.iv := rfl
@[simp] theorem resetAction_len (s : State) : (resetAction s).len = 0 := rfl
@[simp] theorem resetAction_off (s : State) : (resetAction s).off = 0 := rfl
@[simp] theorem resetAction_val (s : State) : (resetAction s).val = 0 := rfl
@[simp] theorem resetAction_tail (s : State) : (resetAction s).tail = [] := rfl
@[simp] theorem resetAction_dig (s : State) : (resetAction s).dig = [] := rfl
@[simp] theorem resetAction_nblk (s : State) : (resetAction s).nblk = 0 := rfl
@[simp] theorem resetAction_planinfo (s : State) : (resetAction s).planinfo = ⟨0, 0, 0, 0⟩ := rfl
@[simp] theorem resetAction_status (s : State) : (resetAction s).status = ⟨false, false, false, 0⟩ := rfl
@[simp] theorem resetAction_errinfo (s : State) : (resetAction s).errinfo = 0 := rfl
@[simp] theorem resetAction_pend (s : State) : (resetAction s).pend = freeWord s.draws 0x24 := rfl
@[simp] theorem resetAction_work (s : State) : (resetAction s).work = freeWork s.draws := rfl
@[simp] theorem resetAction_words (s : State) : (resetAction s).words = freeWords s.draws := rfl
@[simp] theorem resetAction_seq (s : State) : (resetAction s).seq = ⟨.idle, 0, 0⟩ := rfl
@[simp] theorem resetAction_msg (s : State) : (resetAction s).msg = s.msg := rfl
@[simp] theorem resetAction_msgOld (s : State) : (resetAction s).msgOld = [] := rfl
@[simp] theorem resetAction_inbox (s : State) : (resetAction s).inbox = s.inbox := rfl
@[simp] theorem resetAction_lastRead (s : State) : (resetAction s).lastRead = s.lastRead := rfl
@[simp] theorem resetAction_draws (s : State) : (resetAction s).draws = s.draws + 1 := rfl

@[simp] theorem memWrite_hash (s : State) (B : Buffer) (o : Nat) (bs : List Byte) : (memWrite s B o bs).hash = s.hash := by cases B <;> rfl
@[simp] theorem memWrite_len (s : State) (B : Buffer) (o : Nat) (bs : List Byte) : (memWrite s B o bs).len = s.len := by cases B <;> rfl
@[simp] theorem memWrite_off (s : State) (B : Buffer) (o : Nat) (bs : List Byte) : (memWrite s B o bs).off = s.off := by cases B <;> rfl
@[simp] theorem memWrite_val (s : State) (B : Buffer) (o : Nat) (bs : List Byte) : (memWrite s B o bs).val = s.val := by cases B <;> rfl
@[simp] theorem memWrite_nblk (s : State) (B : Buffer) (o : Nat) (bs : List Byte) : (memWrite s B o bs).nblk = s.nblk := by cases B <;> rfl
@[simp] theorem memWrite_planinfo (s : State) (B : Buffer) (o : Nat) (bs : List Byte) : (memWrite s B o bs).planinfo = s.planinfo := by cases B <;> rfl
@[simp] theorem memWrite_status (s : State) (B : Buffer) (o : Nat) (bs : List Byte) : (memWrite s B o bs).status = s.status := by cases B <;> rfl
@[simp] theorem memWrite_errinfo (s : State) (B : Buffer) (o : Nat) (bs : List Byte) : (memWrite s B o bs).errinfo = s.errinfo := by cases B <;> rfl
@[simp] theorem memWrite_pend (s : State) (B : Buffer) (o : Nat) (bs : List Byte) : (memWrite s B o bs).pend = s.pend := by cases B <;> rfl
@[simp] theorem memWrite_work (s : State) (B : Buffer) (o : Nat) (bs : List Byte) : (memWrite s B o bs).work = s.work := by cases B <;> rfl
@[simp] theorem memWrite_words (s : State) (B : Buffer) (o : Nat) (bs : List Byte) : (memWrite s B o bs).words = s.words := by cases B <;> rfl
@[simp] theorem memWrite_seq (s : State) (B : Buffer) (o : Nat) (bs : List Byte) : (memWrite s B o bs).seq = s.seq := by cases B <;> rfl
@[simp] theorem memWrite_msg (s : State) (B : Buffer) (o : Nat) (bs : List Byte) : (memWrite s B o bs).msg = s.msg := by cases B <;> rfl
@[simp] theorem memWrite_msgOld (s : State) (B : Buffer) (o : Nat) (bs : List Byte) : (memWrite s B o bs).msgOld = s.msgOld := by cases B <;> rfl
@[simp] theorem memWrite_inbox (s : State) (B : Buffer) (o : Nat) (bs : List Byte) : (memWrite s B o bs).inbox = s.inbox := by cases B <;> rfl
@[simp] theorem memWrite_lastRead (s : State) (B : Buffer) (o : Nat) (bs : List Byte) : (memWrite s B o bs).lastRead = s.lastRead := by cases B <;> rfl
@[simp] theorem memWrite_draws (s : State) (B : Buffer) (o : Nat) (bs : List Byte) : (memWrite s B o bs).draws = s.draws := by cases B <;> rfl

@[simp] theorem putU32Le_hash (s : State) (B : Buffer) (o : Nat) (v : Word) : (putU32Le s B o v).hash = s.hash := by cases B <;> rfl
@[simp] theorem putU32Le_len (s : State) (B : Buffer) (o : Nat) (v : Word) : (putU32Le s B o v).len = s.len := by cases B <;> rfl
@[simp] theorem putU32Le_off (s : State) (B : Buffer) (o : Nat) (v : Word) : (putU32Le s B o v).off = s.off := by cases B <;> rfl
@[simp] theorem putU32Le_val (s : State) (B : Buffer) (o : Nat) (v : Word) : (putU32Le s B o v).val = s.val := by cases B <;> rfl
@[simp] theorem putU32Le_nblk (s : State) (B : Buffer) (o : Nat) (v : Word) : (putU32Le s B o v).nblk = s.nblk := by cases B <;> rfl
@[simp] theorem putU32Le_planinfo (s : State) (B : Buffer) (o : Nat) (v : Word) : (putU32Le s B o v).planinfo = s.planinfo := by cases B <;> rfl
@[simp] theorem putU32Le_status (s : State) (B : Buffer) (o : Nat) (v : Word) : (putU32Le s B o v).status = s.status := by cases B <;> rfl
@[simp] theorem putU32Le_errinfo (s : State) (B : Buffer) (o : Nat) (v : Word) : (putU32Le s B o v).errinfo = s.errinfo := by cases B <;> rfl
@[simp] theorem putU32Le_pend (s : State) (B : Buffer) (o : Nat) (v : Word) : (putU32Le s B o v).pend = s.pend := by cases B <;> rfl
@[simp] theorem putU32Le_work (s : State) (B : Buffer) (o : Nat) (v : Word) : (putU32Le s B o v).work = s.work := by cases B <;> rfl
@[simp] theorem putU32Le_words (s : State) (B : Buffer) (o : Nat) (v : Word) : (putU32Le s B o v).words = s.words := by cases B <;> rfl
@[simp] theorem putU32Le_seq (s : State) (B : Buffer) (o : Nat) (v : Word) : (putU32Le s B o v).seq = s.seq := by cases B <;> rfl
@[simp] theorem putU32Le_msg (s : State) (B : Buffer) (o : Nat) (v : Word) : (putU32Le s B o v).msg = s.msg := by cases B <;> rfl
@[simp] theorem putU32Le_msgOld (s : State) (B : Buffer) (o : Nat) (v : Word) : (putU32Le s B o v).msgOld = s.msgOld := by cases B <;> rfl
@[simp] theorem putU32Le_inbox (s : State) (B : Buffer) (o : Nat) (v : Word) : (putU32Le s B o v).inbox = s.inbox := by cases B <;> rfl
@[simp] theorem putU32Le_lastRead (s : State) (B : Buffer) (o : Nat) (v : Word) : (putU32Le s B o v).lastRead = s.lastRead := by cases B <;> rfl
@[simp] theorem putU32Le_draws (s : State) (B : Buffer) (o : Nat) (v : Word) : (putU32Le s B o v).draws = s.draws := by cases B <;> rfl

@[simp] theorem putU64Le_hash (s : State) (B : Buffer) (o : Nat) (v : DWord) : (putU64Le s B o v).hash = s.hash := by cases B <;> rfl
@[simp] theorem putU64Le_len (s : State) (B : Buffer) (o : Nat) (v : DWord) : (putU64Le s B o v).len = s.len := by cases B <;> rfl
@[simp] theorem putU64Le_off (s : State) (B : Buffer) (o : Nat) (v : DWord) : (putU64Le s B o v).off = s.off := by cases B <;> rfl
@[simp] theorem putU64Le_val (s : State) (B : Buffer) (o : Nat) (v : DWord) : (putU64Le s B o v).val = s.val := by cases B <;> rfl
@[simp] theorem putU64Le_nblk (s : State) (B : Buffer) (o : Nat) (v : DWord) : (putU64Le s B o v).nblk = s.nblk := by cases B <;> rfl
@[simp] theorem putU64Le_planinfo (s : State) (B : Buffer) (o : Nat) (v : DWord) : (putU64Le s B o v).planinfo = s.planinfo := by cases B <;> rfl
@[simp] theorem putU64Le_status (s : State) (B : Buffer) (o : Nat) (v : DWord) : (putU64Le s B o v).status = s.status := by cases B <;> rfl
@[simp] theorem putU64Le_errinfo (s : State) (B : Buffer) (o : Nat) (v : DWord) : (putU64Le s B o v).errinfo = s.errinfo := by cases B <;> rfl
@[simp] theorem putU64Le_pend (s : State) (B : Buffer) (o : Nat) (v : DWord) : (putU64Le s B o v).pend = s.pend := by cases B <;> rfl
@[simp] theorem putU64Le_work (s : State) (B : Buffer) (o : Nat) (v : DWord) : (putU64Le s B o v).work = s.work := by cases B <;> rfl
@[simp] theorem putU64Le_words (s : State) (B : Buffer) (o : Nat) (v : DWord) : (putU64Le s B o v).words = s.words := by cases B <;> rfl
@[simp] theorem putU64Le_seq (s : State) (B : Buffer) (o : Nat) (v : DWord) : (putU64Le s B o v).seq = s.seq := by cases B <;> rfl
@[simp] theorem putU64Le_msg (s : State) (B : Buffer) (o : Nat) (v : DWord) : (putU64Le s B o v).msg = s.msg := by cases B <;> rfl
@[simp] theorem putU64Le_msgOld (s : State) (B : Buffer) (o : Nat) (v : DWord) : (putU64Le s B o v).msgOld = s.msgOld := by cases B <;> rfl
@[simp] theorem putU64Le_inbox (s : State) (B : Buffer) (o : Nat) (v : DWord) : (putU64Le s B o v).inbox = s.inbox := by cases B <;> rfl
@[simp] theorem putU64Le_lastRead (s : State) (B : Buffer) (o : Nat) (v : DWord) : (putU64Le s B o v).lastRead = s.lastRead := by cases B <;> rfl
@[simp] theorem putU64Le_draws (s : State) (B : Buffer) (o : Nat) (v : DWord) : (putU64Le s B o v).draws = s.draws := by cases B <;> rfl

@[simp] theorem putU64Be_hash (s : State) (B : Buffer) (o : Nat) (v : DWord) : (putU64Be s B o v).hash = s.hash := by cases B <;> rfl
@[simp] theorem putU64Be_len (s : State) (B : Buffer) (o : Nat) (v : DWord) : (putU64Be s B o v).len = s.len := by cases B <;> rfl
@[simp] theorem putU64Be_off (s : State) (B : Buffer) (o : Nat) (v : DWord) : (putU64Be s B o v).off = s.off := by cases B <;> rfl
@[simp] theorem putU64Be_val (s : State) (B : Buffer) (o : Nat) (v : DWord) : (putU64Be s B o v).val = s.val := by cases B <;> rfl
@[simp] theorem putU64Be_nblk (s : State) (B : Buffer) (o : Nat) (v : DWord) : (putU64Be s B o v).nblk = s.nblk := by cases B <;> rfl
@[simp] theorem putU64Be_planinfo (s : State) (B : Buffer) (o : Nat) (v : DWord) : (putU64Be s B o v).planinfo = s.planinfo := by cases B <;> rfl
@[simp] theorem putU64Be_status (s : State) (B : Buffer) (o : Nat) (v : DWord) : (putU64Be s B o v).status = s.status := by cases B <;> rfl
@[simp] theorem putU64Be_errinfo (s : State) (B : Buffer) (o : Nat) (v : DWord) : (putU64Be s B o v).errinfo = s.errinfo := by cases B <;> rfl
@[simp] theorem putU64Be_pend (s : State) (B : Buffer) (o : Nat) (v : DWord) : (putU64Be s B o v).pend = s.pend := by cases B <;> rfl
@[simp] theorem putU64Be_work (s : State) (B : Buffer) (o : Nat) (v : DWord) : (putU64Be s B o v).work = s.work := by cases B <;> rfl
@[simp] theorem putU64Be_words (s : State) (B : Buffer) (o : Nat) (v : DWord) : (putU64Be s B o v).words = s.words := by cases B <;> rfl
@[simp] theorem putU64Be_seq (s : State) (B : Buffer) (o : Nat) (v : DWord) : (putU64Be s B o v).seq = s.seq := by cases B <;> rfl
@[simp] theorem putU64Be_msg (s : State) (B : Buffer) (o : Nat) (v : DWord) : (putU64Be s B o v).msg = s.msg := by cases B <;> rfl
@[simp] theorem putU64Be_msgOld (s : State) (B : Buffer) (o : Nat) (v : DWord) : (putU64Be s B o v).msgOld = s.msgOld := by cases B <;> rfl
@[simp] theorem putU64Be_inbox (s : State) (B : Buffer) (o : Nat) (v : DWord) : (putU64Be s B o v).inbox = s.inbox := by cases B <;> rfl
@[simp] theorem putU64Be_lastRead (s : State) (B : Buffer) (o : Nat) (v : DWord) : (putU64Be s B o v).lastRead = s.lastRead := by cases B <;> rfl
@[simp] theorem putU64Be_draws (s : State) (B : Buffer) (o : Nat) (v : DWord) : (putU64Be s B o v).draws = s.draws := by cases B <;> rfl

@[simp] theorem memWrite_tail_tail (s : State) (o : Nat) (bs : List Byte) :
    (memWrite s .tail o bs).tail = Memory.writeBytes s.tail o bs := rfl
@[simp] theorem memWrite_tail_dig (s : State) (o : Nat) (bs : List Byte) : (memWrite s .tail o bs).dig = s.dig := rfl
@[simp] theorem memWrite_dig_dig (s : State) (o : Nat) (bs : List Byte) :
    (memWrite s .dig o bs).dig = Memory.writeBytes s.dig o bs := rfl
@[simp] theorem memWrite_dig_tail (s : State) (o : Nat) (bs : List Byte) : (memWrite s .dig o bs).tail = s.tail := rfl

@[simp] theorem formatDigest_hash (s : State) : (formatDigest s).hash = s.hash := rfl
@[simp] theorem formatDigest_len (s : State) : (formatDigest s).len = s.len := rfl
@[simp] theorem formatDigest_off (s : State) : (formatDigest s).off = s.off := rfl
@[simp] theorem formatDigest_val (s : State) : (formatDigest s).val = s.val := rfl
@[simp] theorem formatDigest_tail (s : State) : (formatDigest s).tail = s.tail := rfl
@[simp] theorem formatDigest_dig (s : State) : (formatDigest s).dig = Memory.writeBytes s.dig 0 (serialize s.hash) := rfl
@[simp] theorem formatDigest_nblk (s : State) : (formatDigest s).nblk = s.nblk := rfl
@[simp] theorem formatDigest_planinfo (s : State) : (formatDigest s).planinfo = s.planinfo := rfl
@[simp] theorem formatDigest_status (s : State) : (formatDigest s).status = s.status := rfl
@[simp] theorem formatDigest_errinfo (s : State) : (formatDigest s).errinfo = s.errinfo := rfl
@[simp] theorem formatDigest_pend (s : State) : (formatDigest s).pend = s.pend := rfl
@[simp] theorem formatDigest_work (s : State) : (formatDigest s).work = s.work := rfl
@[simp] theorem formatDigest_words (s : State) : (formatDigest s).words = s.words := rfl
@[simp] theorem formatDigest_seq (s : State) : (formatDigest s).seq = s.seq := rfl
@[simp] theorem formatDigest_msg (s : State) : (formatDigest s).msg = s.msg := rfl
@[simp] theorem formatDigest_msgOld (s : State) : (formatDigest s).msgOld = s.msgOld := rfl
@[simp] theorem formatDigest_inbox (s : State) : (formatDigest s).inbox = s.inbox := rfl
@[simp] theorem formatDigest_lastRead (s : State) : (formatDigest s).lastRead = s.lastRead := rfl
@[simp] theorem formatDigest_draws (s : State) : (formatDigest s).draws = s.draws := rfl

@[simp] theorem accept_hash (w : Word) (s : State) : (accept w s).hash = s.hash := rfl
@[simp] theorem accept_len (w : Word) (s : State) : (accept w s).len = s.len := rfl
@[simp] theorem accept_off (w : Word) (s : State) : (accept w s).off = s.off := rfl
@[simp] theorem accept_val (w : Word) (s : State) : (accept w s).val = s.val := rfl
@[simp] theorem accept_tail (w : Word) (s : State) : (accept w s).tail = s.tail := rfl
@[simp] theorem accept_dig (w : Word) (s : State) : (accept w s).dig = s.dig := rfl
@[simp] theorem accept_nblk (w : Word) (s : State) : (accept w s).nblk = s.nblk := rfl
@[simp] theorem accept_planinfo (w : Word) (s : State) : (accept w s).planinfo = s.planinfo := rfl
@[simp] theorem accept_status (w : Word) (s : State) : (accept w s).status = ⟨true, false, s.status.ovr, s.status.err⟩ := rfl
@[simp] theorem accept_errinfo (w : Word) (s : State) : (accept w s).errinfo = s.errinfo := rfl
@[simp] theorem accept_pend (w : Word) (s : State) : (accept w s).pend = w := rfl
@[simp] theorem accept_work (w : Word) (s : State) : (accept w s).work = s.work := rfl
@[simp] theorem accept_words (w : Word) (s : State) : (accept w s).words = s.words := rfl
@[simp] theorem accept_seq (w : Word) (s : State) : (accept w s).seq = s.seq := rfl
@[simp] theorem accept_msg (w : Word) (s : State) : (accept w s).msg = s.msg := rfl
@[simp] theorem accept_msgOld (w : Word) (s : State) : (accept w s).msgOld = s.msgOld := rfl
@[simp] theorem accept_inbox (w : Word) (s : State) : (accept w s).inbox = s.inbox := rfl
@[simp] theorem accept_lastRead (w : Word) (s : State) : (accept w s).lastRead = s.lastRead := rfl
@[simp] theorem accept_draws (w : Word) (s : State) : (accept w s).draws = s.draws := rfl

@[simp] theorem overrun_hash (s : State) : (overrun s).hash = s.hash := rfl
@[simp] theorem overrun_len (s : State) : (overrun s).len = s.len := rfl
@[simp] theorem overrun_off (s : State) : (overrun s).off = s.off := rfl
@[simp] theorem overrun_val (s : State) : (overrun s).val = s.val := rfl
@[simp] theorem overrun_tail (s : State) : (overrun s).tail = s.tail := rfl
@[simp] theorem overrun_dig (s : State) : (overrun s).dig = s.dig := rfl
@[simp] theorem overrun_nblk (s : State) : (overrun s).nblk = s.nblk := rfl
@[simp] theorem overrun_planinfo (s : State) : (overrun s).planinfo = s.planinfo := rfl
@[simp] theorem overrun_status (s : State) : (overrun s).status = ⟨s.status.busy, s.status.done, true, s.status.err⟩ := rfl
@[simp] theorem overrun_errinfo (s : State) : (overrun s).errinfo = s.errinfo := rfl
@[simp] theorem overrun_pend (s : State) : (overrun s).pend = s.pend := rfl
@[simp] theorem overrun_work (s : State) : (overrun s).work = s.work := rfl
@[simp] theorem overrun_words (s : State) : (overrun s).words = s.words := rfl
@[simp] theorem overrun_seq (s : State) : (overrun s).seq = s.seq := rfl
@[simp] theorem overrun_msg (s : State) : (overrun s).msg = s.msg := rfl
@[simp] theorem overrun_msgOld (s : State) : (overrun s).msgOld = s.msgOld := rfl
@[simp] theorem overrun_inbox (s : State) : (overrun s).inbox = s.inbox := rfl
@[simp] theorem overrun_lastRead (s : State) : (overrun s).lastRead = s.lastRead := rfl
@[simp] theorem overrun_draws (s : State) : (overrun s).draws = s.draws := rfl

@[simp] theorem changeMsg_hash (m : Message) (s : State) : (changeMsg m s).hash = s.hash := rfl
@[simp] theorem changeMsg_len (m : Message) (s : State) : (changeMsg m s).len = s.len := rfl
@[simp] theorem changeMsg_off (m : Message) (s : State) : (changeMsg m s).off = s.off := rfl
@[simp] theorem changeMsg_val (m : Message) (s : State) : (changeMsg m s).val = s.val := rfl
@[simp] theorem changeMsg_tail (m : Message) (s : State) : (changeMsg m s).tail = s.tail := rfl
@[simp] theorem changeMsg_dig (m : Message) (s : State) : (changeMsg m s).dig = s.dig := rfl
@[simp] theorem changeMsg_nblk (m : Message) (s : State) : (changeMsg m s).nblk = s.nblk := rfl
@[simp] theorem changeMsg_planinfo (m : Message) (s : State) : (changeMsg m s).planinfo = s.planinfo := rfl
@[simp] theorem changeMsg_status (m : Message) (s : State) : (changeMsg m s).status = s.status := rfl
@[simp] theorem changeMsg_errinfo (m : Message) (s : State) : (changeMsg m s).errinfo = s.errinfo := rfl
@[simp] theorem changeMsg_pend (m : Message) (s : State) : (changeMsg m s).pend = s.pend := rfl
@[simp] theorem changeMsg_work (m : Message) (s : State) : (changeMsg m s).work = s.work := rfl
@[simp] theorem changeMsg_words (m : Message) (s : State) : (changeMsg m s).words = s.words := rfl
@[simp] theorem changeMsg_seq (m : Message) (s : State) : (changeMsg m s).seq = s.seq := rfl
@[simp] theorem changeMsg_msg (m : Message) (s : State) : (changeMsg m s).msg = m := rfl
@[simp] theorem changeMsg_msgOld (m : Message) (s : State) : (changeMsg m s).msgOld = if s.status.busy then s.msg :: s.msgOld else s.msgOld := rfl
@[simp] theorem changeMsg_inbox (m : Message) (s : State) : (changeMsg m s).inbox = s.inbox := rfl
@[simp] theorem changeMsg_lastRead (m : Message) (s : State) : (changeMsg m s).lastRead = s.lastRead := rfl
@[simp] theorem changeMsg_draws (m : Message) (s : State) : (changeMsg m s).draws = s.draws := rfl

end Sys2Proof.Machine
end

