-- ==== Sys2Proof/Laws/Memory.lean ====
section
/-! SUPPORT. The laws of the byte spaces: read after write, the canonical form is kept, offsets stay below a bound, and what `MemRead` answers. -/

namespace Sys2Proof.Machine

theorem read_erase (m : Memory) (x y : Nat) : Memory.read (Memory.erase m x) y = if y = x then 0 else Memory.read m y := by
  induction m with
  | nil => simp [Memory.erase, Memory.read]
  | cons c m ih =>
    obtain ⟨a, b⟩ := c
    by_cases hax : a = x
    · simp only [Memory.erase, hax, if_true, ih, Memory.read]
      by_cases hy : y = x
      · simp [hy]
      · simp [hy, Ne.symm hy]
    · simp only [Memory.erase, hax, if_false, Memory.read]
      by_cases hay : a = y
      · subst hay; simp [hax]
      · simp [hay, ih]

theorem read_insert (m : Memory) (x y : Nat) (v : Byte) (hx : ∀ c ∈ m, c.1 ≠ x) :
    Memory.read (Memory.insert m x v) y = if y = x then v else Memory.read m y := by
  induction m with
  | nil => simp [Memory.insert, Memory.read, eq_comm]
  | cons c m ih =>
    obtain ⟨a, b⟩ := c
    have hax : a ≠ x := hx (a, b) (by simp)
    have ih := ih (fun c hc => hx c (by simp [hc]))
    by_cases hlt : x < a
    · simp [Memory.insert, hlt, Memory.read, eq_comm]
    · simp only [Memory.insert, hlt, if_false, Memory.read, ih]
      by_cases hay : a = y
      · subst hay; simp [hax]
      · simp [hay]

theorem ne_of_mem_erase {m : Memory} {x : Nat} {c : Host.Cell} (h : c ∈ Memory.erase m x) : c.1 ≠ x := by
  induction m with
  | nil => simp [Memory.erase] at h
  | cons d m ih =>
    obtain ⟨a, b⟩ := d
    by_cases hax : a = x
    · rw [Memory.erase, if_pos hax] at h; exact ih h
    · rw [Memory.erase, if_neg hax, List.mem_cons] at h
      rcases h with rfl | h
      · exact hax
      · exact ih h

/-- Read after write, for every memory. -/
@[simp] theorem read_write (m : Memory) (x y : Nat) (v : Byte) :
    Memory.read (Memory.write m x v) y = if y = x then v else Memory.read m y := by
  unfold Memory.write
  split
  · next h => simp [read_erase, h]
  · rw [read_insert _ _ _ _ (fun c hc => ne_of_mem_erase hc), read_erase]
    by_cases hy : y = x <;> simp [hy]

/-- Reading after a list of bytes has been written at consecutive offsets. -/
theorem read_writeBytes (m : Memory) (x y : Nat) (bs : List Byte) :
    Memory.read (Memory.writeBytes m x bs) y =
      if x ≤ y ∧ y < x + bs.length then bs.getD (y - x) 0 else Memory.read m y := by
  induction bs generalizing m x with
  | nil =>
    rw [if_neg (by simp only [List.length_nil]; omega)]; rfl
  | cons b bs ih =>
    rw [Memory.writeBytes, ih, read_write]
    simp only [List.length_cons]
    by_cases h1 : y = x
    · subst h1
      rw [if_neg (by omega), if_pos rfl, if_pos (by omega)]; simp
    · by_cases h2 : x + 1 ≤ y ∧ y < x + 1 + bs.length
      · rw [if_pos h2, if_pos (by omega)]
        obtain ⟨k, rfl⟩ : ∃ k, y = x + 1 + k := ⟨y - (x + 1), by omega⟩
        have e : x + 1 + k - x = k + 1 := by omega
        simp [e]
      · rw [if_neg h2, if_neg h1, if_neg (by omega)]

/-- A byte outside the bytes written is left alone. -/
theorem read_writeBytes_outside (m : Memory) (x y : Nat) (bs : List Byte) (h : y < x ∨ x + bs.length ≤ y) :
    Memory.read (Memory.writeBytes m x bs) y = Memory.read m y := by
  rw [read_writeBytes, if_neg (by omega)]

theorem wfFrom_mono {lo lo' : Nat} {m : Memory} (h : lo' ≤ lo) (hm : Memory.wfFrom lo m = true) : Memory.wfFrom lo' m = true := by
  cases m with
  | nil => rfl
  | cons c m =>
    obtain ⟨a, b⟩ := c
    simp only [Memory.wfFrom, Bool.and_eq_true, decide_eq_true_eq] at hm ⊢
    exact ⟨⟨by omega, hm.1.2⟩, hm.2⟩

theorem wfFrom_erase {lo : Nat} {m : Memory} (x : Nat) (hm : Memory.wfFrom lo m = true) : Memory.wfFrom lo (Memory.erase m x) = true := by
  induction m generalizing lo with
  | nil => rfl
  | cons c m ih =>
    obtain ⟨a, b⟩ := c
    simp only [Memory.wfFrom, Bool.and_eq_true, decide_eq_true_eq] at hm
    by_cases hax : a = x
    · rw [Memory.erase, if_pos hax]; exact wfFrom_mono (by omega) (ih hm.2)
    · rw [Memory.erase, if_neg hax]
      simp only [Memory.wfFrom, Bool.and_eq_true, decide_eq_true_eq]
      exact ⟨hm.1, ih hm.2⟩

theorem wfFrom_insert {lo : Nat} {m : Memory} {x : Nat} {v : Byte} (hv : v ≠ 0) (hlo : lo ≤ x) (hx : ∀ c ∈ m, c.1 ≠ x)
    (hm : Memory.wfFrom lo m = true) : Memory.wfFrom lo (Memory.insert m x v) = true := by
  induction m generalizing lo with
  | nil => simpa [Memory.insert, Memory.wfFrom, hlo] using hv
  | cons c m ih =>
    obtain ⟨a, b⟩ := c
    have hax : a ≠ x := hx (a, b) (by simp)
    simp only [Memory.wfFrom, Bool.and_eq_true, decide_eq_true_eq] at hm
    by_cases hlt : x < a
    · simp only [Memory.insert, hlt, if_true, Memory.wfFrom, Bool.and_eq_true, decide_eq_true_eq]
      exact ⟨⟨hlo, by simpa using hv⟩, ⟨by omega, hm.1.2⟩, hm.2⟩
    · simp only [Memory.insert, hlt, if_false, Memory.wfFrom, Bool.and_eq_true, decide_eq_true_eq]
      exact ⟨hm.1, ih (by omega) (fun c hc => hx c (by simp [hc])) hm.2⟩

/-- Every memory operation keeps the canonical form. -/
theorem wf_write {m : Memory} (x : Nat) (v : Byte) (hm : Memory.wf m = true) : Memory.wf (Memory.write m x v) = true := by
  unfold Memory.write Memory.wf at *
  split
  · exact wfFrom_erase x hm
  · next h => exact wfFrom_insert h (Nat.zero_le _) (fun c hc => ne_of_mem_erase hc) (wfFrom_erase x hm)

theorem wf_writeBytes {m : Memory} (x : Nat) (bs : List Byte) (hm : Memory.wf m = true) : Memory.wf (Memory.writeBytes m x bs) = true := by
  induction bs generalizing m x with
  | nil => exact hm
  | cons b bs ih => exact ih (x + 1) (wf_write x b hm)

theorem below_erase {n : Nat} {m : Memory} (x : Nat) (hm : Memory.below n m = true) : Memory.below n (Memory.erase m x) = true := by
  induction m with
  | nil => rfl
  | cons c m ih =>
    obtain ⟨a, b⟩ := c
    simp only [Memory.below, List.all_cons, Bool.and_eq_true] at hm
    by_cases hax : a = x
    · rw [Memory.erase, if_pos hax]; exact ih hm.2
    · rw [Memory.erase, if_neg hax]
      simp only [Memory.below, List.all_cons, Bool.and_eq_true]
      exact ⟨hm.1, ih hm.2⟩

theorem below_insert {n : Nat} {m : Memory} {x : Nat} {v : Byte} (hx : x < n) (hm : Memory.below n m = true) :
    Memory.below n (Memory.insert m x v) = true := by
  induction m with
  | nil => simp [Memory.insert, Memory.below, hx]
  | cons c m ih =>
    obtain ⟨a, b⟩ := c
    simp only [Memory.below, List.all_cons, Bool.and_eq_true, decide_eq_true_eq] at hm
    by_cases hlt : x < a
    · simp only [Memory.insert, hlt, if_true, Memory.below, List.all_cons, Bool.and_eq_true, decide_eq_true_eq]
      exact ⟨hx, hm⟩
    · simp only [Memory.insert, hlt, if_false, Memory.below, List.all_cons, Bool.and_eq_true, decide_eq_true_eq]
      exact ⟨hm.1, ih hm.2⟩

/-- A write below the bound keeps every listed offset below it. -/
theorem below_write {n : Nat} {m : Memory} {x : Nat} (v : Byte) (hx : x < n) (hm : Memory.below n m = true) :
    Memory.below n (Memory.write m x v) = true := by
  unfold Memory.write
  split
  · exact below_erase x hm
  · exact below_insert hx (below_erase x hm)

theorem below_writeBytes {n : Nat} {m : Memory} {x : Nat} (bs : List Byte) (hx : x + bs.length ≤ n)
    (hm : Memory.below n m = true) : Memory.below n (Memory.writeBytes m x bs) = true := by
  induction bs generalizing m x with
  | nil => exact hm
  | cons b bs ih =>
    simp only [List.length_cons] at hx
    exact ih (by omega) (below_write b (by omega) hm)

theorem ofCells_ok {n : Nat} (cells : List Host.Cell) (h : ∀ c ∈ cells, c.1 < n) :
    Memory.wf (Memory.ofCells cells) = true ∧ Memory.below n (Memory.ofCells cells) = true := by
  suffices H : ∀ m : Memory, Memory.wf m = true ∧ Memory.below n m = true →
      Memory.wf (cells.foldl (fun m c => Memory.write m c.1 c.2) m) = true ∧
      Memory.below n (cells.foldl (fun m c => Memory.write m c.1 c.2) m) = true from H [] ⟨rfl, rfl⟩
  induction cells with
  | nil => exact fun m hm => hm
  | cons c cells ih =>
    intro m hm
    exact ih (fun d hd => h d (by simp [hd])) _ ⟨wf_write _ _ hm.1, below_write _ (h c (by simp)) hm.2⟩

@[simp] theorem freeBytes_length (d slot n : Nat) : (freeBytes d slot n).length = n := by
  induction n generalizing slot with
  | zero => rfl
  | succ n ih => simp [freeBytes, ih]

theorem freeTail_ok (d : Nat) : Memory.wf (freeTail d) = true ∧ Memory.below 128 (freeTail d) = true := by
  unfold freeTail
  exact ⟨wf_writeBytes _ _ rfl, below_writeBytes _ (by simp) rfl⟩

theorem freeDig_ok (d : Nat) : Memory.wf (freeDig d) = true ∧ Memory.below 16 (freeDig d) = true := by
  unfold freeDig
  exact ⟨wf_writeBytes _ _ rfl, below_writeBytes _ (by simp) rfl⟩

/-- The byte read is the message's own when nothing changed it in the window (R81). -/
@[simp] theorem msgVersion_of_still {s : State} (h : s.msgOld = []) (off : Nat) : msgVersion s off = s.msg := by
  simp [msgVersion, h]

/-- Otherwise it is that of one of the versions the message had in the window (R256). -/
theorem msgVersion_mem (s : State) (off : Nat) : msgVersion s off ∈ s.msg :: s.msgOld := by
  unfold msgVersion
  split
  · simp
  · next h =>
    rw [List.getD_eq_getElem?_getD]
    cases hk : (s.msg :: s.msgOld)[Config.freePick s.draws off % (s.msgOld.length + 1)]? with
    | none => simp
    | some v => exact List.mem_of_getElem? hk

/-- `memByte` looks at the byte spaces, the versions of the message and the count of draws, and at nothing else. -/
theorem memByte_congr {s t : State} (hm : t.msg = s.msg) (ho : t.msgOld = s.msgOld) (hd : t.draws = s.draws) (ht : t.tail = s.tail)
    (hg : t.dig = s.dig) (S : Space) (off : Nat) : memByte t S off = memByte s S off := by
  cases S <;> simp [memByte, msgVersion, hm, ho, hd, ht, hg]

theorem memRead_congr {s t : State} {S : Space} {off n : Nat} (h : ∀ i < n, memByte t S (off + i) = memByte s S (off + i)) :
    memRead t S off n = memRead s S off n := by
  induction n generalizing off with
  | zero => rfl
  | succ n ih =>
    have h0 := h 0 (by omega)
    have hr := ih (off := off + 1) (fun i hi => by simpa [Nat.add_comm, Nat.add_left_comm, Nat.add_assoc] using h (i + 1) (by omega))
    rw [Nat.add_zero] at h0
    simp only [memRead, h0, hr]

/-- A read that succeeds gives the bytes at its offsets, in order. -/
theorem memRead_some {s : State} {S : Space} {off n : Nat} {bs : List Byte} (h : memRead s S off n = some bs) :
    bs.length = n ∧ ∀ i < n, memByte s S (off + i) = some (bs.getD i 0) := by
  induction n generalizing off bs with
  | zero => simp only [memRead, Option.some.injEq] at h; subst h; exact ⟨rfl, fun i hi => absurd hi (by omega)⟩
  | succ n ih =>
    simp only [memRead] at h
    split at h
    · simp at h
    · next b hb =>
      split at h
      · simp at h
      · next cs hcs =>
        simp only [Option.some.injEq] at h
        subst h
        obtain ⟨hl, hi⟩ := ih hcs
        refine ⟨by simp [hl], fun i hlt => ?_⟩
        cases i with
        | zero => simpa using hb
        | succ i => simpa [Nat.add_comm, Nat.add_left_comm, Nat.add_assoc] using hi i (by omega)

/-- A read whose every byte is there succeeds. -/
theorem memRead_of_bytes {s : State} {S : Space} {off : Nat} {bs : List Byte}
    (h : ∀ i < bs.length, memByte s S (off + i) = some (bs.getD i 0)) : memRead s S off bs.length = some bs := by
  induction bs generalizing off with
  | nil => rfl
  | cons b bs ih =>
    have h0 := h 0 (by simp)
    have hr := ih (off := off + 1) (fun i hi => by
      simpa [Nat.add_comm, Nat.add_left_comm, Nat.add_assoc] using h (i + 1) (by simpa using hi))
    simp only [Nat.add_zero, List.getD_cons_zero] at h0
    simp only [List.length_cons, memRead, h0, hr]

theorem memRead_none_iff {s : State} {S : Space} {off n : Nat} :
    memRead s S off n = none ↔ ∃ i < n, memByte s S (off + i) = none := by
  induction n generalizing off with
  | zero => simp [memRead]
  | succ n ih =>
    simp only [memRead]
    constructor
    · intro h
      split at h
      · next hb => exact ⟨0, by omega, by simpa using hb⟩
      · split at h
        · next hr =>
          obtain ⟨i, hi, hn⟩ := ih.mp hr
          exact ⟨i + 1, by omega, by simpa [Nat.add_comm, Nat.add_left_comm, Nat.add_assoc] using hn⟩
        · simp at h
    · rintro ⟨i, hi, hn⟩
      cases i with
      | zero => rw [Nat.add_zero] at hn; simp [hn]
      | succ i =>
        have : memRead s S (off + 1) n = none :=
          ih.mpr ⟨i, by omega, by simpa [Nat.add_comm, Nat.add_left_comm, Nat.add_assoc] using hn⟩
        cases memByte s S off <;> simp [this]

/-- `TAIL` and `DIG` are always readable (R69, R75). -/
theorem memRead_tail (s : State) (off n : Nat) :
    memRead s .tail off n = some ((List.range n).map fun i => Memory.read s.tail (off + i)) := by
  have := memRead_of_bytes (s := s) (S := .tail) (off := off) (bs := (List.range n).map fun i => Memory.read s.tail (off + i))
    (fun i hi => by
      simp only [List.length_map, List.length_range] at hi
      simp [memByte, hi])
  simpa using this

theorem memRead_dig (s : State) (off n : Nat) :
    memRead s .dig off n = some ((List.range n).map fun i => Memory.read s.dig (off + i)) := by
  have := memRead_of_bytes (s := s) (S := .dig) (off := off) (bs := (List.range n).map fun i => Memory.read s.dig (off + i))
    (fun i hi => by
      simp only [List.length_map, List.length_range] at hi
      simp [memByte, hi])
  simpa using this

/-- `MemRead` of a message that holds still, within its extent (R69). -/
theorem memRead_msg_still {s : State} {off n : Nat} (h : s.msgOld = []) (hn : off + n ≤ s.msg.extent) :
    memRead s .msg off n = some ((List.range n).map fun i => Memory.read s.msg.cells (off + i)) := by
  have := memRead_of_bytes (s := s) (S := .msg) (off := off)
    (bs := (List.range n).map fun i => Memory.read s.msg.cells (off + i))
    (fun i hi => by
      simp only [List.length_map, List.length_range] at hi
      have : off + i < s.msg.extent := by omega
      simp [memByte, h, Message.byteAt, hi, this])
  simpa using this

end Sys2Proof.Machine
end

