-- ==== Sys2Proof/Laws/Exec.lean ====
section
/-! SUPPORT. What a command can do, said once: the course of each shared operation, of each command, and of a step. -/

namespace Sys2Proof.Machine

theorem putU32Le_eq (s : State) (B : Buffer) (o : Nat) (v : Word) : putU32Le s B o v = memWrite s B o (bytesLe32 v) := rfl
theorem putU64Le_eq (s : State) (B : Buffer) (o : Nat) (v : DWord) : putU64Le s B o v = memWrite s B o (bytesLe64 v) := rfl
theorem putU64Be_eq (s : State) (B : Buffer) (o : Nat) (v : DWord) : putU64Be s B o v = memWrite s B o (bytesBe64 v) := rfl

@[simp] theorem bytesLe32_length (v : Word) : (bytesLe32 v).length = 4 := rfl
@[simp] theorem bytesLe64_length (v : DWord) : (bytesLe64 v).length = 8 := rfl
@[simp] theorem bytesBe64_length (v : DWord) : (bytesBe64 v).length = 8 := rfl
@[simp] theorem serialize_length (h : HashState) : (serialize h).length = 16 := rfl

theorem getU32Le_some_iff {s : State} {S : Space} {off : Nat} {w : Word} :
    getU32Le s S off = some w ↔ ∃ b0 b1 b2 b3, memRead s S off 4 = some [b0, b1, b2, b3] ∧ w = wordLe b0 b1 b2 b3 := by
  unfold getU32Le
  constructor
  · intro h
    split at h
    · next b0 b1 b2 b3 hr => exact ⟨b0, b1, b2, b3, hr, by simpa [eq_comm] using h⟩
    · simp at h
  · rintro ⟨b0, b1, b2, b3, hr, rfl⟩
    simp [hr]

theorem getU32Be_some_iff {s : State} {S : Space} {off : Nat} {w : Word} :
    getU32Be s S off = some w ↔ ∃ b0 b1 b2 b3, memRead s S off 4 = some [b0, b1, b2, b3] ∧ w = wordBe b0 b1 b2 b3 := by
  unfold getU32Be
  constructor
  · intro h
    split at h
    · next b0 b1 b2 b3 hr => exact ⟨b0, b1, b2, b3, hr, by simpa [eq_comm] using h⟩
    · simp at h
  · rintro ⟨b0, b1, b2, b3, hr, rfl⟩
    simp [hr]

/-- A successful read of four bytes is a list of four. -/
theorem memRead_four {s : State} {S : Space} {off : Nat} {bs : List Byte} (h : memRead s S off 4 = some bs) :
    ∃ b0 b1 b2 b3, bs = [b0, b1, b2, b3] := by
  obtain ⟨hl, -⟩ := memRead_some h
  match bs, hl with
  | [b0, b1, b2, b3], _ => exact ⟨b0, b1, b2, b3, rfl⟩

theorem getU32Le_none_iff {s : State} {S : Space} {off : Nat} : getU32Le s S off = none ↔ memRead s S off 4 = none := by
  unfold getU32Le
  cases h : memRead s S off 4 with
  | none => simp
  | some bs => obtain ⟨b0, b1, b2, b3, rfl⟩ := memRead_four h; simp

theorem getU32Be_none_iff {s : State} {S : Space} {off : Nat} : getU32Be s S off = none ↔ memRead s S off 4 = none := by
  unfold getU32Be
  cases h : memRead s S off 4 with
  | none => simp
  | some bs => obtain ⟨b0, b1, b2, b3, rfl⟩ := memRead_four h; simp

/-- Everything a get can do (R120). -/
theorem getCommand_cases (get : State → Space → Nat → Option Word) (S : Space) (s : State) :
    (s.off.toNat + 4 ≤ spaceSize s S ∧ ∃ w, get s S s.off.toNat = some w ∧ getCommand get S s = .next (finish { s with val := w.setWidth 64 })) ∨
    (s.off.toNat + 4 ≤ spaceSize s S ∧ get s S s.off.toNat = none ∧ getCommand get S s = .next (raiseMsgFault .val s)) ∨
    (spaceSize s S < s.off.toNat + 4 ∧ getCommand get S s = .next (raiseFault errBounds s)) := by
  unfold getCommand inBounds
  by_cases h : s.off.toNat + 4 ≤ spaceSize s S
  · cases hg : get s S s.off.toNat with
    | none => exact .inr (.inl ⟨h, rfl, by simp [h]⟩)
    | some w => exact .inl ⟨h, w, rfl, by simp [h]⟩
  · exact .inr (.inr ⟨by omega, by simp [h]⟩)

/-- Everything a put can do (R120). -/
theorem putCommand_cases (n : Nat) (B : Buffer) (put : State → Buffer → Nat → State) (s : State) :
    (s.off.toNat + n ≤ spaceSize s (bufferSpace B) ∧ putCommand n B put s = .next (finish (put s B s.off.toNat))) ∨
    (spaceSize s (bufferSpace B) < s.off.toNat + n ∧ putCommand n B put s = .next (raiseFault errBounds s)) := by
  unfold putCommand inBounds
  by_cases h : s.off.toNat + n ≤ spaceSize s (bufferSpace B)
  · exact .inl ⟨h, by simp [h]⟩
  · exact .inr ⟨by omega, by simp [h]⟩

/-- Everything BLOCK can do (R178). -/
theorem blockCommand_cases (S : Space) (s : State) :
    (s.off.toNat + 64 ≤ spaceSize s S ∧ ∃ blk, memRead s S s.off.toNat 64 = some blk ∧
      blockCommand S s = .next (finish { s with hash := compress s.hash blk })) ∨
    (s.off.toNat + 64 ≤ spaceSize s S ∧ memRead s S s.off.toNat 64 = none ∧ blockCommand S s = .next (raiseMsgFault .hash s)) ∨
    (spaceSize s S < s.off.toNat + 64 ∧ blockCommand S s = .next (raiseFault errBounds s)) := by
  unfold blockCommand inBounds
  by_cases h : s.off.toNat + 64 ≤ spaceSize s S
  · cases hg : memRead s S s.off.toNat 64 with
    | none => exact .inr (.inl ⟨h, rfl, by simp [h]⟩)
    | some w => exact .inl ⟨h, w, rfl, by simp [h]⟩
  · exact .inr (.inr ⟨by omega, by simp [h]⟩)

/-- What the body of PLAN leaves (R147). -/
theorem runPlan_some {s t : State} (h : runPlan s = some t) :
    ∃ left, memRead s .msg (s.len.toNat - lengthMod64 s.len.toNat) (lengthMod64 s.len.toNat) = some left ∧
      t = { s with tail := tailContents s.len.toNat left, nblk := BitVec.ofNat 64 (blockCount s.len.toNat), planinfo := planInfoOf s.len.toNat } := by
  unfold runPlan at h
  split at h
  · simp at h
  · next left hl => exact ⟨left, hl, by simpa [eq_comm] using h⟩

theorem runPlan_none_iff {s : State} :
    runPlan s = none ↔ memRead s .msg (s.len.toNat - lengthMod64 s.len.toNat) (lengthMod64 s.len.toNat) = none := by
  unfold runPlan
  cases memRead s .msg (s.len.toNat - lengthMod64 s.len.toNat) (lengthMod64 s.len.toNat) <;> simp

/-- What the body of HASH leaves (R200): the plan, a hash state, its digest. -/
theorem runHash_some {s u : State} (h : runHash s = some u) :
    ∃ t k, runPlan s = some t ∧ compressPlan t = some k ∧ u = formatDigest { t with hash := k } := by
  unfold runHash at h
  split at h
  · simp at h
  · next t ht =>
    split at h
    · simp at h
    · next k hk => exact ⟨t, k, ht, hk, by simpa [eq_comm] using h⟩

theorem lengthMod64_lt (L : Nat) : lengthMod64 L < 64 := Nat.mod_lt _ (by omega)

/-- The trailer stands at 56 or 120 (R148 (a)). -/
theorem trailerOffset_cases (L : Nat) :
    (lengthMod64 L < 56 ∧ trailerOffset L = 56 ∧ chunkCount L = 2) ∨ (56 ≤ lengthMod64 L ∧ trailerOffset L = 120 ∧ chunkCount L = 3) := by
  have := lengthMod64_lt L
  unfold trailerOffset zeros chunkCount room
  by_cases h : 64 - lengthMod64 L < 9
  · rw [if_pos h, if_pos h]; omega
  · rw [if_neg h, if_neg h]; omega

/-- The tail the constructor builds is canonical and inside `TAIL` (R148 (b)). -/
theorem tailContents_ok {L : Nat} {left : List Byte} (hl : left.length = lengthMod64 L) :
    Memory.wf (tailContents L left) = true ∧ Memory.below 128 (tailContents L left) = true := by
  have h1 := lengthMod64_lt L
  unfold tailContents
  refine ⟨wf_writeBytes _ _ (wf_write _ _ (wf_writeBytes _ _ rfl)), ?_⟩
  refine below_writeBytes _ ?_ (below_write _ (by omega) (below_writeBytes _ (by omega) rfl))
  rcases trailerOffset_cases L with ⟨-, h, -⟩ | ⟨-, h, -⟩ <;> simp [h]

theorem exec_get32leMsg (s : State) : exec .get32leMsg s = getCommand getU32Le .msg s := rfl
theorem exec_get32leTail (s : State) : exec .get32leTail s = getCommand getU32Le .tail s := rfl
theorem exec_get32leDig (s : State) : exec .get32leDig s = getCommand getU32Le .dig s := rfl
theorem exec_get32beMsg (s : State) : exec .get32beMsg s = getCommand getU32Be .msg s := rfl
theorem exec_get32beTail (s : State) : exec .get32beTail s = getCommand getU32Be .tail s := rfl
theorem exec_get32beDig (s : State) : exec .get32beDig s = getCommand getU32Be .dig s := rfl
theorem exec_put32leTail (s : State) : exec .put32leTail s = putCommand 4 .tail (fun s B o => putU32Le s B o (s.val.extractLsb' 0 32)) s := rfl
theorem exec_put32leDig (s : State) : exec .put32leDig s = putCommand 4 .dig (fun s B o => putU32Le s B o (s.val.extractLsb' 0 32)) s := rfl
theorem exec_put64leTail (s : State) : exec .put64leTail s = putCommand 8 .tail (fun s B o => putU64Le s B o s.val) s := rfl
theorem exec_put64leDig (s : State) : exec .put64leDig s = putCommand 8 .dig (fun s B o => putU64Le s B o s.val) s := rfl
theorem exec_put64beTail (s : State) : exec .put64beTail s = putCommand 8 .tail (fun s B o => putU64Be s B o s.val) s := rfl
theorem exec_put64beDig (s : State) : exec .put64beDig s = putCommand 8 .dig (fun s B o => putU64Be s B o s.val) s := rfl
theorem exec_init (s : State) : exec .init s = .next (finish { s with hash := HashState.iv }) := rfl
theorem exec_plan (s : State) : exec .plan s = execPlan s := rfl
theorem exec_blockMsg (s : State) : exec .blockMsg s = blockCommand .msg s := rfl
theorem exec_blockTail (s : State) : exec .blockTail s = blockCommand .tail s := rfl
theorem exec_digest (s : State) : exec .digest s = .next (finish (formatDigest s)) := rfl
theorem exec_hash (s : State) : exec .hash s = execHash s := rfl

/-- What a command that completes has done before it finishes, besides what R105 does for every command. -/
inductive Effect (s : State) : State → Prop where
  | val (v : DWord) : Effect s { s with val := v }
  | stored (B : Buffer) (o : Nat) (bs : List Byte) (h : o + bs.length ≤ spaceSize s (bufferSpace B)) : Effect s (memWrite s B o bs)
  | hash (k : HashState) : Effect s { s with hash := k }
  | plan (t : State) (h : runPlan s = some t) : Effect s t
  | digest : Effect s (formatDigest s)
  | whole (t : State) (h : runHash s = some t) : Effect s t

/-- Everything the execution of a command can do: it completes with its effect, or takes BOUNDS, or takes MSG_FAULT. -/
theorem exec_cases (i : Instr) (s : State) :
    (∃ u, Effect s u ∧ exec i s = .next (finish u)) ∨ exec i s = .next (raiseFault errBounds s) ∨
      ∃ ws, exec i s = .next (raiseMsgFault ws s) := by
  have hget : ∀ get S, exec i s = getCommand get S s → (∃ u, Effect s u ∧ exec i s = .next (finish u)) ∨
      exec i s = .next (raiseFault errBounds s) ∨ ∃ ws, exec i s = .next (raiseMsgFault ws s) := by
    intro get S he
    rcases getCommand_cases get S s with ⟨-, w, -, h⟩ | ⟨-, -, h⟩ | ⟨-, h⟩
    · exact .inl ⟨_, .val _, he.trans h⟩
    · exact .inr (.inr ⟨_, he.trans h⟩)
    · exact .inr (.inl (he.trans h))
  have hput : ∀ n B (put : State → Buffer → Nat → State) (bs : List Byte), bs.length = n → put s B s.off.toNat = memWrite s B s.off.toNat bs →
      exec i s = putCommand n B put s → (∃ u, Effect s u ∧ exec i s = .next (finish u)) ∨
      exec i s = .next (raiseFault errBounds s) ∨ ∃ ws, exec i s = .next (raiseMsgFault ws s) := by
    intro n B put bs hn hp he
    rcases putCommand_cases n B put s with ⟨hb, h⟩ | ⟨-, h⟩
    · exact .inl ⟨_, .stored B s.off.toNat bs (by omega), by rw [he, h, hp]⟩
    · exact .inr (.inl (he.trans h))
  have hblk : ∀ S, exec i s = blockCommand S s → (∃ u, Effect s u ∧ exec i s = .next (finish u)) ∨
      exec i s = .next (raiseFault errBounds s) ∨ ∃ ws, exec i s = .next (raiseMsgFault ws s) := by
    intro S he
    rcases blockCommand_cases S s with ⟨-, w, -, h⟩ | ⟨-, -, h⟩ | ⟨-, h⟩
    · exact .inl ⟨_, .hash _, he.trans h⟩
    · exact .inr (.inr ⟨_, he.trans h⟩)
    · exact .inr (.inl (he.trans h))
  cases i with
  | get32leMsg => exact hget getU32Le .msg (exec_get32leMsg s)
  | get32leTail => exact hget getU32Le .tail (exec_get32leTail s)
  | get32leDig => exact hget getU32Le .dig (exec_get32leDig s)
  | get32beMsg => exact hget getU32Be .msg (exec_get32beMsg s)
  | get32beTail => exact hget getU32Be .tail (exec_get32beTail s)
  | get32beDig => exact hget getU32Be .dig (exec_get32beDig s)
  | put32leTail => exact hput 4 _ _ (bytesLe32 (s.val.extractLsb' 0 32)) rfl rfl (exec_put32leTail s)
  | put32leDig => exact hput 4 _ _ (bytesLe32 (s.val.extractLsb' 0 32)) rfl rfl (exec_put32leDig s)
  | put64leTail => exact hput 8 _ _ (bytesLe64 s.val) rfl rfl (exec_put64leTail s)
  | put64leDig => exact hput 8 _ _ (bytesLe64 s.val) rfl rfl (exec_put64leDig s)
  | put64beTail => exact hput 8 _ _ (bytesBe64 s.val) rfl rfl (exec_put64beTail s)
  | put64beDig => exact hput 8 _ _ (bytesBe64 s.val) rfl rfl (exec_put64beDig s)
  | init => exact .inl ⟨_, .hash _, rfl⟩
  | plan =>
    cases h : runPlan s with
    | none => exact .inr (.inr ⟨.plan, by simp [exec, execPlan, h]⟩)
    | some t => exact .inl ⟨t, .plan t h, by simp [exec, execPlan, h]⟩
  | blockMsg => exact hblk .msg (exec_blockMsg s)
  | blockTail => exact hblk .tail (exec_blockTail s)
  | digest => exact .inl ⟨_, .digest, rfl⟩
  | hash =>
    cases h : runHash s with
    | none => exact .inr (.inr ⟨.whole, by simp [exec, execHash, h]⟩)
    | some t => exact .inl ⟨t, .whole t h, by simp [exec, execHash, h]⟩

/-- Every command answers a next state. -/
theorem exec_next (i : Instr) (s : State) : ∃ t, exec i s = .next t := by
  rcases exec_cases i s with ⟨u, -, h⟩ | h | ⟨ws, h⟩ <;> exact ⟨_, h⟩

/-- What no effect touches. -/
theorem Effect.keeps {s u : State} (h : Effect s u) :
    u.len = s.len ∧ u.off = s.off ∧ u.msg = s.msg ∧ u.msgOld = s.msgOld ∧ u.inbox = s.inbox ∧ u.lastRead = s.lastRead ∧ u.status = s.status ∧
      u.errinfo = s.errinfo ∧ u.draws = s.draws ∧ u.pend = s.pend ∧ u.seq = s.seq := by
  cases h with
  | val | hash | stored | digest => simp
  | plan _ h => obtain ⟨left, -, rfl⟩ := runPlan_some h; simp
  | whole _ h =>
    obtain ⟨t, k, ht, -, rfl⟩ := runHash_some h
    obtain ⟨left, -, rfl⟩ := runPlan_some ht; simp

/-- Everything a step can do. -/
theorem step_cases (s : State) :
    (∃ a rest, s.inbox = a :: rest ∧ a ≠ .wait ∧ step s = .next (hostAct a { s with inbox := rest })) ∨
    (∃ acts, (s.inbox = [] ∧ acts = [] ∨ s.inbox = .wait :: acts) ∧ s.status.busy = false ∧ step s = .next { s with inbox := acts }) ∨
    (∃ acts, (s.inbox = [] ∧ acts = [] ∨ s.inbox = .wait :: acts) ∧ s.status.busy = true ∧
      ((∃ i, decode s.pend = .ok i ∧ step s = exec i { s with inbox := acts }) ∨
       (∃ e, decode s.pend = .error e ∧ step s = .next (raiseFault errIllegalCmd { s with inbox := acts })))) := by
  have hself : ∀ l, s.inbox = l → ({ s with inbox := l } : State) = s := by intro l h; subst h; rfl
  have heng : ∀ acts, step s = engineStep { s with inbox := acts } →
      (s.status.busy = false ∧ step s = .next { s with inbox := acts }) ∨
      (s.status.busy = true ∧ ((∃ i, decode s.pend = .ok i ∧ step s = exec i { s with inbox := acts }) ∨
        (∃ e, decode s.pend = .error e ∧ step s = .next (raiseFault errIllegalCmd { s with inbox := acts })))) := by
    intro acts h
    unfold engineStep at h
    cases hb : s.status.busy
    · exact .inl ⟨rfl, by simpa [hb] using h⟩
    · refine .inr ⟨rfl, ?_⟩
      cases hd : decode s.pend with
      | ok i => exact .inl ⟨i, rfl, by simpa [hb, hd] using h⟩
      | error e => exact .inr ⟨e, rfl, by simpa [hb, hd] using h⟩
  cases hi : s.inbox with
  | nil =>
    have : step s = engineStep { s with inbox := [] } := by rw [hself _ hi]; simp [step, machineStep, hi]
    rcases heng [] this with ⟨hb, h⟩ | ⟨hb, h⟩
    · exact .inr (.inl ⟨[], .inl ⟨rfl, rfl⟩, hb, h⟩)
    · exact .inr (.inr ⟨[], .inl ⟨rfl, rfl⟩, hb, h⟩)
  | cons a rest =>
    cases a with
    | wait =>
      have : step s = engineStep { s with inbox := rest } := by simp [step, machineStep, hi]
      rcases heng rest this with ⟨hb, h⟩ | ⟨hb, h⟩
      · exact .inr (.inl ⟨rest, .inr rfl, hb, h⟩)
      · exact .inr (.inr ⟨rest, .inr rfl, hb, h⟩)
    | write r v => exact .inl ⟨_, rest, rfl, by simp, by simp [step, machineStep, hi]⟩
    | read r => exact .inl ⟨_, rest, rfl, by simp, by simp [step, machineStep, hi]⟩
    | reset => exact .inl ⟨_, rest, rfl, by simp, by simp [step, machineStep, hi]⟩
    | storeMsg o b => exact .inl ⟨_, rest, rfl, by simp, by simp [step, machineStep, hi]⟩
    | bindMsg e c => exact .inl ⟨_, rest, rfl, by simp, by simp [step, machineStep, hi]⟩

/-- Everything `HostWrite` can do (R102, R103, R46). -/
theorem hostWrite_cases (reg : Nat) (v : DWord) (s : State) :
    (s.status.busy = true ∧ (reg = 0 ∨ reg = 3 ∨ reg = 4 ∨ reg = 5) ∧ hostWrite reg v s = overrun s) ∨
    (¬ (s.status.busy = true ∧ (reg = 0 ∨ reg = 3 ∨ reg = 4 ∨ reg = 5)) ∧
      (hostWrite reg v s = s ∨
       (reg = 0 ∧ s.status.busy = false ∧ s.status.err = 0 ∧ hostWrite reg v s = accept (v.setWidth 32) s) ∨
       (s.status.busy = false ∧ (hostWrite reg v s = { s with len := v } ∨ hostWrite reg v s = { s with off := v } ∨
         hostWrite reg v s = { s with val := v })))) := by
  unfold hostWrite
  split
  · unfold writeCmd
    cases hb : s.status.busy
    · by_cases he : s.status.err = 0
      · exact .inr ⟨by simp, .inr (.inl ⟨rfl, rfl, he, by rw [if_neg (by simp), if_pos he]⟩)⟩
      · exact .inr ⟨by simp, .inl (by rw [if_neg (by simp), if_neg he])⟩
    · exact .inl ⟨rfl, .inl rfl, rfl⟩
  · cases hb : s.status.busy <;> simp
  · cases hb : s.status.busy <;> simp
  · cases hb : s.status.busy <;> simp
  · next h0 h3 h4 h5 => simp_all

/-- Everything `HostRead` changes (R104). -/
theorem hostRead_cases (reg : Nat) (s : State) : ∃ v d, hostRead reg s = { s with lastRead := some (reg, v), draws := d } := by
  unfold hostRead
  split
  · exact ⟨_, _, rfl⟩
  · exact ⟨_, s.draws, rfl⟩

end Sys2Proof.Machine
end

