-- ==== Sys2Proof/Laws/Bits.lean ====
section
/-! SUPPORT. The codec's values as numbers and its bytes as fields (R62 to R66, R71), the registers PLANINFO as a number (R147), and the tail byte by byte (R144). -/

namespace Sys2Proof.Machine

/-- Concatenation as arithmetic. -/
theorem toNat_append_add {n m : Nat} (x : BitVec n) (y : BitVec m) : (x ++ y).toNat = x.toNat * 2 ^ m + y.toNat := by
  rw [BitVec.toNat_append, ← Nat.shiftLeft_add_eq_or_of_lt y.isLt, Nat.shiftLeft_eq]

/-- `get_u32_le` as a sum of its bytes (R62). -/
theorem wordLe_toNat (a b c d : Byte) : (wordLe a b c d).toNat = a.toNat + 2 ^ 8 * b.toNat + 2 ^ 16 * c.toNat + 2 ^ 24 * d.toNat := by
  have h : (wordLe a b c d).toNat = ((d.toNat * 2 ^ 8 + c.toNat) * 2 ^ 8 + b.toNat) * 2 ^ 8 + a.toNat := by
    unfold wordLe
    rw [toNat_append_add, toNat_append_add, toNat_append_add]
  omega

/-- Big-endian is little-endian of the bytes reversed (R63). -/
theorem wordBe_eq (a b c d : Byte) : wordBe a b c d = wordLe d c b a := rfl

/-- Four consecutive byte fields of a doubleword make its 32-bit field (R71). -/
theorem wordLe_extract (v : DWord) (k : Nat) :
    wordLe (v.extractLsb' k 8) (v.extractLsb' (k + 8) 8) (v.extractLsb' (k + 16) 8) (v.extractLsb' (k + 24) 8) = v.extractLsb' k 32 := by
  unfold wordLe
  apply BitVec.eq_of_getLsbD_eq
  intro i hi
  rw [BitVec.getLsbD_append, BitVec.getLsbD_append, BitVec.getLsbD_append]
  simp only [BitVec.getLsbD_extractLsb']
  by_cases h1 : i < 8
  · simp [h1, hi]
  · by_cases h2 : i - 8 < 8
    · simp [h1, h2, hi, show k + 8 + (i - 8) = k + i by omega]
    · by_cases h3 : i - 8 - 8 < 8
      · simp [h1, h2, h3, hi, show k + 16 + (i - 8 - 8) = k + i by omega]
      · simp [h1, h2, h3, hi, show k + 24 + (i - 8 - 8 - 8) = k + i by omega, show i - 8 - 8 - 8 < 8 by omega]

/-- The bytes of a 32-bit field of a doubleword are byte fields of the doubleword. -/
theorem bytesLe32_extract (v : DWord) (k : Nat) :
    bytesLe32 (v.extractLsb' k 32) = [v.extractLsb' k 8, v.extractLsb' (k + 8) 8, v.extractLsb' (k + 16) 8, v.extractLsb' (k + 24) 8] := by
  have h : ∀ j, j ≤ 24 → (v.extractLsb' k 32).extractLsb' j 8 = v.extractLsb' (k + j) 8 := by
    intro j hj
    apply BitVec.eq_of_getLsbD_eq
    intro i hi
    simp only [BitVec.getLsbD_extractLsb', hi, Nat.add_assoc, show j + i < 32 by omega, decide_true, Bool.true_and]
  simp [bytesLe32, h]

/-- Byte `i` of a doubleword, least significant first (R65). -/
theorem bytesLe64_getD (v : DWord) (i : Nat) (hi : i < 8) : (bytesLe64 v).getD i 0 = BitVec.ofNat 8 (v.toNat / 2 ^ (8 * i)) := by
  have h : ∀ k, v.extractLsb' k 8 = BitVec.ofNat 8 (v.toNat / 2 ^ k) := by
    intro k
    apply BitVec.eq_of_toNat_eq
    simp [BitVec.extractLsb'_toNat, Nat.shiftRight_eq_div_pow]
  rcases (by omega : i = 0 ∨ i = 1 ∨ i = 2 ∨ i = 3 ∨ i = 4 ∨ i = 5 ∨ i = 6 ∨ i = 7) with rfl | rfl | rfl | rfl | rfl | rfl | rfl | rfl <;>
    simp [bytesLe64, h]

/-- `PLANINFO = lm + 2^8 * room + 2^16 * zeros + 2^24 * chunks` (R147). -/
theorem planInfo_word_toNat (lm rm zs ch : Nat) (h1 : lm < 64) (h2 : rm < 128) (h3 : zs < 64) (h4 : ch < 4) :
    (PlanInfo.word ⟨BitVec.ofNat 6 lm, BitVec.ofNat 7 rm, BitVec.ofNat 6 zs, BitVec.ofNat 2 ch⟩).toNat =
      lm + 2 ^ 8 * rm + 2 ^ 16 * zs + 2 ^ 24 * ch := by
  have h : (PlanInfo.word ⟨BitVec.ofNat 6 lm, BitVec.ofNat 7 rm, BitVec.ofNat 6 zs, BitVec.ofNat 2 ch⟩).toNat =
      ((((((0 * 2 ^ 2 + ch % 2 ^ 2) * 2 ^ 2 + 0) * 2 ^ 6 + zs % 2 ^ 6) * 2 ^ 1 + 0) * 2 ^ 7 + rm % 2 ^ 7) * 2 ^ 2 + 0) * 2 ^ 6 + lm % 2 ^ 6 := by
    unfold PlanInfo.word
    rw [toNat_append_add, toNat_append_add, toNat_append_add, toNat_append_add, toNat_append_add, toNat_append_add, toNat_append_add]
    simp only [BitVec.toNat_ofNat]
    rfl
  rw [h]
  omega

/-- Every byte of the tail the constructor builds (R144). -/
theorem read_tailContents {L : Nat} {left : List Byte} (hl : left.length = lengthMod64 L) (k : Nat) :
    Memory.read (tailContents L left) k =
      if k < lengthMod64 L then left.getD k 0
      else if k = lengthMod64 L then 0x80
      else if trailerOffset L ≤ k ∧ k < trailerOffset L + 8 then (bytesLe64 (bitLength L)).getD (k - trailerOffset L) 0
      else 0 := by
  unfold tailContents
  rw [read_writeBytes, read_write, read_writeBytes]
  have h1 := trailerOffset_cases L
  have h2 := lengthMod64_lt L
  rw [bytesLe64_length, hl]
  simp only [Nat.zero_add, Nat.zero_le, true_and, Nat.sub_zero, Memory.read]
  by_cases h3 : k < lengthMod64 L
  · rw [if_neg (by omega), if_neg (by omega), if_pos h3, if_pos h3]
  · rw [if_neg h3, if_neg h3]
    by_cases h4 : k = lengthMod64 L
    · rw [if_neg (by omega), if_pos h4, if_pos h4]
    · rw [if_neg h4, if_neg h4]

end Sys2Proof.Machine
end

