-- ==== Sys2Proof/Laws/Blocks.lean ====
section
/-! SUPPORT. Reads in pieces, the blocks of a descriptor as a fold (R146, R177), and when HASH completes (R200). -/

namespace Sys2Proof.Machine

/-- A read that succeeds, of a known length. -/
theorem memRead_eq_some {s : State} {S : Space} {off n : Nat} {bs : List Byte} (hl : bs.length = n)
    (h : ∀ i < n, memByte s S (off + i) = some (bs.getD i 0)) : memRead s S off n = some bs := by
  subst hl; exact memRead_of_bytes h

/-- A read is the read of its first part and the read of the rest. -/
theorem memRead_split {s : State} {S : Space} {off n m : Nat} {bs : List Byte} (h : memRead s S off (n + m) = some bs) :
    memRead s S off n = some (bs.take n) ∧ memRead s S (off + n) m = some (bs.drop n) := by
  obtain ⟨hl, hi⟩ := memRead_some h
  constructor
  · refine memRead_eq_some (by simp; omega) fun i hin => ?_
    rw [hi i (by omega)]
    simp [List.getD_eq_getElem?_getD, hin]
  · refine memRead_eq_some (by simp; omega) fun i him => ?_
    have := hi (n + i) (by omega)
    rw [← Nat.add_assoc] at this
    rw [this]
    simp [List.getD_eq_getElem?_getD]

/-- The first block of several, then the others. -/
theorem compressBlocks_succ (s : State) (S : Space) (off n : Nat) (h : HashState) :
    compressBlocks s S off (n + 1) h = (memRead s S off 64).bind fun blk => compressBlocks s S (off + 64) n (compress h blk) := by
  rw [compressBlocks]
  cases memRead s S off 64 <;> rfl

/-- The blocks of a descriptor whose bytes can be read, as a fold over the 64-byte pieces of the bytes. -/
theorem compressBlocks_of_read {s : State} {S : Space} {n : Nat} : ∀ {off : Nat} {bs : List Byte} (h : HashState),
    memRead s S off (64 * n) = some bs → compressBlocks s S off n h = some ((cutBlocks n bs).foldl compress h) := by
  induction n with
  | zero => intro off bs h _; rfl
  | succ n ih =>
    intro off bs h hr
    rw [show 64 * (n + 1) = 64 + 64 * n by omega] at hr
    obtain ⟨h1, h2⟩ := memRead_split hr
    unfold compressBlocks
    rw [h1]
    exact ih _ h2

/-- The blocks of a descriptor one of whose bytes cannot be read. -/
theorem compressBlocks_none_iff {s : State} {S : Space} {n : Nat} : ∀ {off : Nat} {h : HashState},
    compressBlocks s S off n h = none ↔ memRead s S off (64 * n) = none := by
  intro off h
  constructor
  · intro hc
    cases hr : memRead s S off (64 * n) with
    | none => rfl
    | some bs => rw [compressBlocks_of_read h hr] at hc; simp at hc
  · revert off h
    induction n with
    | zero => intro off h hr; simp [memRead] at hr
    | succ n ih =>
      intro off h hr
      unfold compressBlocks
      cases hb : memRead s S off 64 with
      | none => rfl
      | some blk =>
        refine ih ?_
        rw [memRead_none_iff] at hr ⊢
        obtain ⟨i, hi, hn⟩ := hr
        obtain ⟨-, hall⟩ := memRead_some hb
        by_cases hlt : i < 64
        · rw [hall i hlt] at hn; simp at hn
        · exact ⟨i - 64, by omega, by rw [show off + 64 + (i - 64) = off + i by omega]; exact hn⟩

/-- The blocks look at the bytes they read and at nothing else. -/
theorem compressBlocks_congr {s t : State} {S : Space} {off n : Nat} {h : HashState}
    (hb : ∀ i < 64 * n, memByte t S (off + i) = memByte s S (off + i)) : compressBlocks t S off n h = compressBlocks s S off n h := by
  have hr := memRead_congr hb
  cases hs : memRead s S off (64 * n) with
  | none => rw [compressBlocks_none_iff.mpr hs, compressBlocks_none_iff.mpr (hr.trans hs)]
  | some bs => rw [compressBlocks_of_read h hs, compressBlocks_of_read h (hr.trans hs)]

/-- More blocks are the first ones, then the others. -/
theorem compressBlocks_add {s : State} {S : Space} (m : Nat) {n : Nat} : ∀ {off : Nat} {h : HashState},
    compressBlocks s S off (n + m) h = (compressBlocks s S off n h).bind (compressBlocks s S (off + 64 * n) m) := by
  induction n with
  | zero => intro off h; simp [compressBlocks]
  | succ n ih =>
    intro off h
    rw [show n + 1 + m = (n + m) + 1 by omega, compressBlocks_succ, compressBlocks_succ, show off + 64 * (n + 1) = off + 64 + 64 * n by omega]
    cases memRead s S off 64 with
    | none => rfl
    | some blk => simp only [Option.bind_some]; exact ih

/-- The block phases of HASH as two runs of blocks: those of the message, then the tail's one or two (R146, R200). -/
theorem compressPlan_eq (t : State) : compressPlan t =
    (compressBlocks t .msg 0 t.nblk.toNat HashState.iv).bind fun h => compressBlocks t .tail 0 (if t.planinfo.chunks = 3 then 1 + 1 else 1) h := by
  rw [compressPlan]
  cases compressBlocks t .msg 0 t.nblk.toNat HashState.iv with
  | none => rfl
  | some h =>
    by_cases hc : t.planinfo.chunks = 3
    · simp only [Option.bind_some, if_pos hc]
      rw [compressBlocks_add]
      cases compressBlocks t .tail 0 1 h <;> rfl
    · simp only [Option.bind_some, if_neg hc]
      cases compressBlocks t .tail 0 1 h <;> rfl

/-- HASH as its plan, its blocks and its digest (R200). -/
theorem runHash_eq (s : State) :
    runHash s = (runPlan s).bind fun t => (compressPlan t).map fun h => formatDigest { t with hash := h } := by
  rw [runHash]
  cases runPlan s with
  | none => rfl
  | some t => simp only [Option.bind_some]; cases compressPlan t <;> rfl

/-- What PLAN leaves of the plan, and that it completes when its bytes can be read (R147). -/
theorem runPlan_of_read {s : State} {left : List Byte}
    (h : memRead s .msg (s.len.toNat - lengthMod64 s.len.toNat) (lengthMod64 s.len.toNat) = some left) :
    runPlan s = some { s with
      tail := tailContents s.len.toNat left, nblk := BitVec.ofNat 64 (blockCount s.len.toNat), planinfo := planInfoOf s.len.toNat } := by
  unfold runPlan
  rw [h]

/-- The number of full blocks fits in `NBLK` (R29). -/
theorem toNat_blockCount (L : DWord) : (BitVec.ofNat 64 (blockCount L.toNat)).toNat = blockCount L.toNat := by
  have := L.isLt
  simp only [blockCount, BitVec.toNat_ofNat]
  omega

/-- The plan says three descriptors exactly when there are three (R143, R30). -/
theorem planInfoOf_chunks (L : Nat) : (planInfoOf L).chunks = 3 ↔ chunkCount L = 3 := by
  simp only [planInfoOf, chunkCount]
  split <;> simp

/-- The bytes of the message do not depend on the other byte spaces. -/
theorem memByte_msg_congr {s t : State} (hm : t.msg = s.msg) (ho : t.msgOld = s.msgOld) (hd : t.draws = s.draws) (off : Nat) :
    memByte t .msg off = memByte s .msg off := by simp [memByte, msgVersion, hm, ho, hd]

/-- The blocks of a sequence are the first ones, then those of the rest. -/
theorem cutBlocks_add (n m : Nat) : ∀ bs : List Byte, cutBlocks (n + m) bs = cutBlocks n bs ++ cutBlocks m (bs.drop (64 * n)) := by
  induction n with
  | zero => intro bs; simp [cutBlocks]
  | succ n ih =>
    intro bs
    rw [show n + 1 + m = (n + m) + 1 by omega, cutBlocks, cutBlocks, ih, List.drop_drop, show 64 + 64 * n = 64 * (n + 1) by omega]
    rfl

/-- The first blocks of a sequence lie within its first bytes. -/
theorem cutBlocks_take (n : Nat) : ∀ {k : Nat} {bs : List Byte}, 64 * n ≤ k → cutBlocks n (bs.take k) = cutBlocks n bs := by
  induction n with
  | zero => intro k bs _; rfl
  | succ n ih =>
    intro k bs hk
    rw [cutBlocks, cutBlocks, List.take_take, Nat.min_eq_left (by omega), List.drop_take, ih (by omega)]

end Sys2Proof.Machine
end

