-- ==== Sys2Proof/Laws/Decode.lean ====
section
/-! SUPPORT. The laws of the decoder: a word is its three fields, and what `decode` answers when the field ZERO is not zero. -/

namespace Sys2Proof

/-- A command word is its fields ZERO, BUF and OP (R91). -/
theorem word_fields (w : Word) : w = (zeroField w ++ bufField w ++ opField w : BitVec (26 + 2 + 4)) := by
  unfold zeroField bufField opField
  apply BitVec.eq_of_getLsbD_eq
  intro i hi
  rw [BitVec.getLsbD_append, BitVec.getLsbD_append]
  simp only [BitVec.getLsbD_extractLsb']
  by_cases h4 : i < 4
  · simp [h4]
  · by_cases h6 : i - 4 < 2
    · simp [h4, h6, show 4 + (i - 4) = i by omega]
    · simp [h4, h6, show i - 4 - 2 < 26 by omega, show 6 + (i - 4 - 2) = i by omega]

theorem decode_of_zeroField_ne {w : Word} (h : zeroField w ≠ 0) : decode w = .error .reservedBits := by
  unfold decode
  rw [if_pos (by simpa using h)]

/-- The word of a command decodes to it (R96, R99). -/
@[simp] theorem decode_encode (i : Instr) : decode (encode i) = .ok i := by cases i <;> rfl

@[simp] theorem tableWord_encode (i : Instr) : tableWord 32 (encode i).toNat = encode i := by cases i <;> rfl

end Sys2Proof
end

