-- ==== Sys2Proof/Laws/PerInstr.lean ====
section
/-! SUPPORT. Statements made per instruction: the family RoundTrip, about the command as syntax. -/

namespace Sys2Proof.Laws.RoundTrip

/-- The word of the command (R96) decodes to the command (R99), breaks no clause of R97, and the command is well formed. -/
def Statement (i : Instr) : Prop := decode (encode i) = .ok i ∧ illegalReason (encode i) = none ∧ i.wellFormed = true

theorem get32leMsg : Statement .get32leMsg := ⟨rfl, rfl, rfl⟩
theorem get32leTail : Statement .get32leTail := ⟨rfl, rfl, rfl⟩
theorem get32leDig : Statement .get32leDig := ⟨rfl, rfl, rfl⟩
theorem get32beMsg : Statement .get32beMsg := ⟨rfl, rfl, rfl⟩
theorem get32beTail : Statement .get32beTail := ⟨rfl, rfl, rfl⟩
theorem get32beDig : Statement .get32beDig := ⟨rfl, rfl, rfl⟩
theorem put32leTail : Statement .put32leTail := ⟨rfl, rfl, rfl⟩
theorem put32leDig : Statement .put32leDig := ⟨rfl, rfl, rfl⟩
theorem put64leTail : Statement .put64leTail := ⟨rfl, rfl, rfl⟩
theorem put64leDig : Statement .put64leDig := ⟨rfl, rfl, rfl⟩
theorem put64beTail : Statement .put64beTail := ⟨rfl, rfl, rfl⟩
theorem put64beDig : Statement .put64beDig := ⟨rfl, rfl, rfl⟩
theorem init : Statement .init := ⟨rfl, rfl, rfl⟩
theorem plan : Statement .plan := ⟨rfl, rfl, rfl⟩
theorem blockMsg : Statement .blockMsg := ⟨rfl, rfl, rfl⟩
theorem blockTail : Statement .blockTail := ⟨rfl, rfl, rfl⟩
theorem digest : Statement .digest := ⟨rfl, rfl, rfl⟩
theorem hash : Statement .hash := ⟨rfl, rfl, rfl⟩

end Sys2Proof.Laws.RoundTrip
end

