-- ==== Sys2Proof/Tests/Slice0.lean ====
section
/-! SUPPORT. Tests. Expected values are those of spec/95_test_vectors.md (section named at each test) or worked out by hand from the rule named. -/

namespace Sys2Proof.Tests

open Sys2Proof.Machine Sys2Proof.Claims

/-- What a field of the next state is. -/
def after {α : Type} (r : Result) (f : State → α) : Option α :=
  match r with
  | .next t => some (f t)
  | .fault _ => none
  | .refused _ => none

/-- `STATUS` and `ERRINFO` after one command (from `exec`, so `ERRINFO` is `PEND`). -/
def statusAfter (r : Result) : Option Word := after r fun t => t.status.word

/-- `n` bytes of a byte space. -/
def bytes (m : Memory) (off n : Nat) : List Byte := (List.range n).map fun i => Memory.read m (off + i)

/-- A message of the bytes 0x61, 0x62, ... ("abc..."), `n` of them. -/
def letters (n : Nat) : Message := ⟨(List.range n).map fun i => (i, BitVec.ofNat 8 (0x61 + i)), n⟩

/-- The message `p(n)` of section 1's conventions: `MSG[i] = i mod 256`, `n` at most 256. -/
def counting (n : Nat) : Message := ⟨(List.range (n - 1)).map fun i => (i + 1, BitVec.ofNat 8 (i + 1)), n⟩

/-- Reset, then a message, `LEN` and `OFF`. -/
def start (m : Message) (len off : Nat) : State := { State.reset with msg := m, len := BitVec.ofNat 64 len, off := BitVec.ofNat 64 off }

/-- Reset, then `OFF` and `VAL`. -/
def operands (off : Nat) (val : DWord) : State := { State.reset with off := BitVec.ofNat 64 off, val := val }

/-- `TAIL[8..15] = 01 02 03 04 05 06 07 08` (section 2.2 row 1), at an offset. -/
def tailAt (off : Nat) : State :=
  { start ⟨[], 0⟩ 0 off with tail := [(8, 1), (9, 2), (10, 3), (11, 4), (12, 5), (13, 6), (14, 7), (15, 8)] }

/-- `DIG[0..15]` as section 2.2 leaves it, at an offset. -/
def digAt (off : Nat) : State :=
  { start ⟨[], 0⟩ 0 off with
    dig := [(0, 0x88), (1, 0x77), (2, 0x66), (3, 0x55), (4, 0x11), (5, 0x22), (6, 0x33), (7, 0x44),
            (8, 0x55), (9, 0x66), (10, 0x77), (11, 0x88), (12, 0xDD), (13, 0xCC), (14, 0xBB), (15, 0xAA)] }

/-- A command word accepted, the host with the given acts still to come. -/
def busyWith (w : Word) (acts : List HostAction) (s : State) : State := { accept w s with inbox := acts }

/-- Stopped by a fault: the engine after section 7.2 (b) row 2. -/
def stopped : State := { State.reset with status := ⟨false, false, false, 1⟩, errinfo := 0x3F }

/-- A command in flight, and a message that was "abcd" when it was accepted and is now "abcz". -/
def window : State :=
  { start ⟨[(0, 0x61), (1, 0x62), (2, 0x63), (3, 0x7A)], 4⟩ 4 0 with msgOld := [letters 4], status := ⟨true, false, false, 0⟩, pend := 0x01 }

-- DECODING: every legal word of section 7.1, written out bit by bit (R91, R93, R94): ZERO 31:6, BUF 5:4, OP 3:0

theorem test_decode_get32leMsg : decode 0b00000000000000000000000000_00_0001#32 = .ok .get32leMsg := by decide
theorem test_decode_get32leTail : decode 0b00000000000000000000000000_01_0001#32 = .ok .get32leTail := by decide
theorem test_decode_get32leDig : decode 0b00000000000000000000000000_10_0001#32 = .ok .get32leDig := by decide
theorem test_decode_get32beMsg : decode 0b00000000000000000000000000_00_0010#32 = .ok .get32beMsg := by decide
theorem test_decode_get32beTail : decode 0b00000000000000000000000000_01_0010#32 = .ok .get32beTail := by decide
theorem test_decode_get32beDig : decode 0b00000000000000000000000000_10_0010#32 = .ok .get32beDig := by decide
theorem test_decode_put32leTail : decode 0b00000000000000000000000000_01_0011#32 = .ok .put32leTail := by decide
theorem test_decode_put32leDig : decode 0b00000000000000000000000000_10_0011#32 = .ok .put32leDig := by decide
theorem test_decode_put64leTail : decode 0b00000000000000000000000000_01_0100#32 = .ok .put64leTail := by decide
theorem test_decode_put64leDig : decode 0b00000000000000000000000000_10_0100#32 = .ok .put64leDig := by decide
theorem test_decode_put64beTail : decode 0b00000000000000000000000000_01_0101#32 = .ok .put64beTail := by decide
theorem test_decode_put64beDig : decode 0b00000000000000000000000000_10_0101#32 = .ok .put64beDig := by decide
theorem test_decode_init : decode 0b00000000000000000000000000_00_0110#32 = .ok .init := by decide
theorem test_decode_plan : decode 0b00000000000000000000000000_00_0111#32 = .ok .plan := by decide
theorem test_decode_blockMsg : decode 0b00000000000000000000000000_00_1000#32 = .ok .blockMsg := by decide
theorem test_decode_blockTail : decode 0b00000000000000000000000000_01_1000#32 = .ok .blockTail := by decide
theorem test_decode_digest : decode 0b00000000000000000000000000_00_1001#32 = .ok .digest := by decide
theorem test_decode_hash : decode 0b00000000000000000000000000_00_1010#32 = .ok .hash := by decide

/-- The host's entry: the word of a row, of 32 bits. -/
theorem test_decodeTableWord : decodeTableWord 32 0x18 = some .blockTail := by decide

-- ILL-FORMED WORDS: one for each clause of R97, refused by the check and by the decoder

theorem test_illformed_reservedBits : illegalReason 0x00000040 = some .reservedBits ∧ decode 0x80000006 = .error .reservedBits := by decide
theorem test_illformed_reservedOpcode : illegalReason 0x00000000 = some .reservedOpcode ∧ decode 0x0000000B = .error .reservedOpcode := by decide
theorem test_illformed_reservedBuffer : illegalReason 0x00000031 = some .reservedBuffer ∧ decode 0x00000038 = .error .reservedBuffer := by decide
theorem test_illformed_bufferNotZero : illegalReason 0x00000016 = some .bufferNotZero ∧ decode 0x00000029 = .error .bufferNotZero := by decide
theorem test_illformed_putNamesMsg : illegalReason 0x00000003 = some .putNamesMsg ∧ decode 0x00000005 = .error .putNamesMsg := by decide
theorem test_illformed_blockNamesDig : illegalReason 0x00000028 = some .blockNamesDig ∧ decode 0x00000028 = .error .blockNamesDig := by decide

/-- Opcodes and buffers that the table of R96 does not put together. -/
theorem test_illformed_names :
    Opcode.mayName .put32le (some .msg) = false ∧ Opcode.mayName .block (some .dig) = false ∧ Opcode.mayName .init (some .tail) = false ∧
    Opcode.mayName .get32le none = false ∧ Opcode.mayName .digest (some .msg) = false := by decide

/-- Every command is well formed. -/
theorem test_wellFormed : ∀ i : Instr, i.wellFormed = true := by intro i; cases i <;> decide

-- THE CODEC (sections 2.2, 2.3, 2.4)

theorem test_get32leTail : after (exec .get32leTail (tailAt 9)) (·.val) = some 0x05040302 := by decide
theorem test_get32beTail : after (exec .get32beTail (tailAt 13)) (·.val) = some 0x06070800 := by decide
theorem test_get32leDig : after (exec .get32leDig (digAt 0)) (·.val) = some 0x55667788 := by decide
theorem test_get32beDig : after (exec .get32beDig (digAt 12)) (·.val) = some 0xDDCCBBAA := by decide
theorem test_get32leMsg : after (exec .get32leMsg (start (letters 8) 8 1)) (·.val) = some 0x65646362 := by decide
theorem test_get32beMsg : after (exec .get32beMsg (start (letters 8) 8 3)) (·.val) = some 0x64656667 := by decide
theorem test_put32leTail :
    after (exec .put32leTail (operands 122 0xFFFFFFFF11223344)) (fun t => bytes t.tail 120 8) = some [0, 0, 0x44, 0x33, 0x22, 0x11, 0, 0] := by decide
theorem test_put32leDig : after (exec .put32leDig (operands 12 0xAABBCCDD)) (fun t => bytes t.dig 11 5) = some [0, 0xDD, 0xCC, 0xBB, 0xAA] := by decide
theorem test_put64leTail :
    after (exec .put64leTail (operands 120 0x0123456789ABCDEF)) (fun t => bytes t.tail 119 9) =
      some [0, 0xEF, 0xCD, 0xAB, 0x89, 0x67, 0x45, 0x23, 0x01] := by decide
theorem test_put64leDig :
    after (exec .put64leDig (operands 0 0x1122334455667788)) (fun t => bytes t.dig 0 9) =
      some [0x88, 0x77, 0x66, 0x55, 0x44, 0x33, 0x22, 0x11, 0] := by decide
theorem test_put64beTail :
    after (exec .put64beTail (operands 8 0x0102030405060708)) (fun t => bytes t.tail 7 10) = some [0, 1, 2, 3, 4, 5, 6, 7, 8, 0] := by decide
theorem test_put64beDig :
    after (exec .put64beDig (operands 4 0x1122334455667788)) (fun t => bytes t.dig 3 10) =
      some [0, 0x11, 0x22, 0x33, 0x44, 0x55, 0x66, 0x77, 0x88, 0] := by decide

/-- The last offset in bounds and the first one out of them, and an offset whose sum would wrap at 2^64 (section 2.4). -/
theorem test_bounds_tail :
    statusAfter (exec .get32leTail (tailAt 124)) = some 0x02 ∧ statusAfter (exec .get32leTail (tailAt 125)) = some 0x20 ∧
    statusAfter (exec .get32leTail (tailAt 0xFFFFFFFFFFFFFFFC)) = some 0x20 := by decide
theorem test_bounds_put64le :
    statusAfter (exec .put64leDig (operands 8 0)) = some 0x02 ∧ statusAfter (exec .put64leDig (operands 9 0)) = some 0x20 ∧
    statusAfter (exec .put64leDig (operands 0xFFFFFFFFFFFFFFF8 0)) = some 0x20 := by decide

/-- `LEN = 8`, `MSG_EXTENT = 6`: `OFF` 2 completes, 3 is MSG_FAULT, 5 is BOUNDS (section 2.4). -/
theorem test_get32leMsg_extent :
    statusAfter (exec .get32leMsg (start (letters 6) 8 2)) = some 0x02 ∧ statusAfter (exec .get32leMsg (start (letters 6) 8 3)) = some 0x30 ∧
    statusAfter (exec .get32leMsg (start (letters 6) 8 5)) = some 0x20 := by decide
theorem test_get32beMsg_extent : statusAfter (exec .get32beMsg (start (letters 6) 8 4)) = some 0x30 := by decide

-- THE TAIL (sections 1.1, 3.1, 3.3)

/-- "abc": `PLANINFO` and the first 64 bytes of `TAIL`. -/
theorem test_plan_abc :
    after (exec .plan (start (letters 3) 3 0)) (fun t => (t.planinfo.word, bytes t.tail 0 5, bytes t.tail 55 9)) =
      some (0x02343D03, [0x61, 0x62, 0x63, 0x80, 0], [0, 0x18, 0, 0, 0, 0, 0, 0, 0]) := by decide
/-- `LEN = 2^61`, nothing bound: the trailer is 0 and `NBLK` is 2^55. -/
theorem test_plan_wraps :
    after (exec .plan (start ⟨[], 0⟩ 0x2000000000000000 0)) (fun t => (t.nblk, t.planinfo.word, bytes t.tail 0 2, bytes t.tail 56 8)) =
      some (0x0080000000000000, 0x02374000, [0x80, 0], [0, 0, 0, 0, 0, 0, 0, 0]) := by decide
/-- The numbers of section 1.3 at 55, 56, 63, 120. -/
theorem test_plan_numbers :
    (planInfoOf 55).word = 0x02000937 ∧ (planInfoOf 56).word = 0x033F0838 ∧ (planInfoOf 63).word = 0x0338013F ∧ (planInfoOf 120).word = 0x033F0838 ∧
    blockCount 120 = 1 := by decide
theorem test_plan_msgFault : statusAfter (exec .plan (start (letters 2) 3 0)) = some 0x30 := by decide

-- THE COMPRESSION (sections 4.1, 4.2, 4.3, 4.4)

theorem test_rotl32 : rotl32 0x12345678 23 = 0x3C091A2B ∧ rotl32 0xDEADBEEF 12 = 0xDBEEFDEA ∧ rotl32 0xDEADBEEF 0 = 0xDEADBEEF := by decide
theorem test_nonlinear :
    F1 0x12345678 0x9ABCDEF0 0x0F1E2D3C = 0x1F3E7F74 ∧ F2 0x12345678 0x9ABCDEF0 0x0F1E2D3C = 0x92B4D6F8 ∧
    F3 0x12345678 0x9ABCDEF0 0x0F1E2D3C = 0x8796A5B4 ∧ F4 0x12345678 0x9ABCDEF0 0x0F1E2D3C = 0x6849080B := by decide
/-- Round 0 of section 4.2. -/
theorem test_round :
    round (blockWords (0x80 :: List.replicate 63 0)) (loadWork HashState.iv) 0 = ⟨0x10325476, 0xA5202774, 0xEFCDAB89, 0x98BADCFE⟩ := by decide
/-- `compress(IV, p(64))`, which depends on every entry of the tables (section 4.3). -/
theorem test_compress :
    compress HashState.iv ((List.range 64).map (BitVec.ofNat 8)) = ⟨0x9144D9CA, 0xD901E4C9, 0x72FC5B38, 0x625FF51E⟩ := by decide +kernel
theorem test_init : after (exec .init { State.reset with hash := ⟨1, 2, 3, 4⟩ }) (·.hash) = some HashState.iv := by decide
/-- Section 4.4 rows 1 and 8. -/
theorem test_blockMsg :
    after (exec .blockMsg (start (counting 64) 64 0)) (·.hash) = some ⟨0x9144D9CA, 0xD901E4C9, 0x72FC5B38, 0x625FF51E⟩ := by decide +kernel
theorem test_blockTail :
    after (exec .blockTail State.reset) (·.hash) = some ⟨0x031F1DAC, 0x6EA58ED0, 0x1FAB67B7, 0x74317791⟩ := by decide +kernel
/-- The faults of BLOCK in section 4.4. -/
theorem test_blockMsg_faults :
    statusAfter (exec .blockMsg (start (counting 64) 64 1)) = some 0x20 ∧ statusAfter (exec .blockMsg (start (counting 100) 128 64)) = some 0x30 := by
  decide +kernel
theorem test_blockTail_bounds : statusAfter (exec .blockTail (tailAt 65)) = some 0x20 := by decide

-- THE DIGEST AND THE WHOLE MESSAGE (sections 5, 1.1)

theorem test_digest :
    after (exec .digest State.reset) (fun t => bytes t.dig 0 16) =
      some [0x01, 0x23, 0x45, 0x67, 0x89, 0xAB, 0xCD, 0xEF, 0xFE, 0xDC, 0xBA, 0x98, 0x76, 0x54, 0x32, 0x10] := by decide
/-- The known answer for "abc". -/
theorem test_hash :
    after (exec .hash (start (letters 3) 3 0)) (fun t => bytes t.dig 0 16) =
      some [0x90, 0x01, 0x50, 0x98, 0x3C, 0xD2, 0x4F, 0xB0, 0xD6, 0x96, 0x3F, 0x7D, 0x28, 0xE1, 0x7F, 0x72] := by decide +kernel
theorem test_hash_msgFault : statusAfter (exec .hash (start (letters 2) 3 0)) = some 0x30 := by decide

-- THE PROTOCOL (section 7.2)

/-- Trace (b), rows 1 and 2: the illegal word 0x3F is accepted, then ends in ILLEGAL_CMD. -/
theorem test_illegal_step :
    (hostWrite 0x00 0x3F State.reset).status.word = 0x01 ∧
    after (step (hostWrite 0x00 0x3F State.reset)) (fun t => (t.status.word, t.errinfo)) = some (0x10, 0x3F) := by decide
/-- Trace (b), rows 3 to 5: what a stopped engine takes. -/
theorem test_stopped_writes :
    hostWrite 0x00 0x06 stopped = stopped ∧ (hostWrite 0x03 5 stopped).len = 5 ∧ hostWrite 0x08 0x1234 stopped = stopped := by decide
/-- Trace (c), rows 3 to 5: `OVR`. -/
theorem test_overrun :
    (hostWrite 0x03 1 (busyWith 0x0A [] State.reset)).status.word = 0x05 ∧ (hostWrite 0x03 1 (busyWith 0x0A [] State.reset)).len = 0 ∧
    (hostWrite 0x01 0 (busyWith 0x0A [] State.reset)).status.word = 0x01 := by decide
/-- Trace (d): `Reset` while busy. -/
theorem test_reset_busy :
    after (step (busyWith 0x0A [.reset] (start (letters 3) 3 0))) (fun t => (t.status.word, t.len, t.hash.h0, t.msg)) =
      some (0x00, 0, 0x67452301, letters 3) := by decide
/-- The word the host places is executed by the very next step, from reset. -/
theorem test_withFetchWord : after (step (State.reset.withFetchWord 32 0x09)) (fun t => (t.status.word, Memory.read t.dig 15)) = some (0x02, 0x10) := by
  decide
/-- Priority (section 7.3): an illegal word before a bad offset. -/
theorem test_priority : statusAfter (step (busyWith 0x38 [] (start (letters 4) 8 0xFFFFFFFFFFFFFFFF))) = some 0x10 := by decide
theorem test_hostRead :
    (hostRead 0x08 State.reset).lastRead = some (0x08, 0x67452301) ∧ (hostRead 0x1F (digAt 0)).lastRead = some (0x1F, 0xAA) ∧
    (hostRead 0x8F (tailAt 0)).lastRead = some (0x8F, 8) ∧ (hostRead 0x0C State.reset).lastRead = some (0x0C, 0) := by decide

/-- The canonical form holds at reset, and a write of 0x00 takes the entry out. -/
theorem test_memory_canonical :
    Memory.wf State.reset.tail = true ∧ Memory.wf (tailAt 0).tail = true ∧ Memory.write (Memory.write [] 5 0x80) 5 0 = [] ∧
    Memory.write (Memory.write [] 5 1) 3 2 = [(3, 2), (5, 1)] ∧ Memory.wf [(5, 1), (3, 2)] = false := by decide

-- WITNESSES: for each statement with hypotheses, a concrete state and operands that meet them together; where its clauses have hypotheses of their
-- own, a witness for each, at the ends of their ranges

theorem witness_StepRunsDecodedCommand :
    ∀ s ∈ [busyWith 0x09 [] State.reset, busyWith 0x09 [.wait, .reset] State.reset],
      s.status.busy = true ∧ decode s.pend = .ok .digest ∧ (s.inbox = [] ∨ s.inbox = .wait :: [.reset]) := by decide

theorem witness_IdleEngineDoesNothing :
    State.reset.status.busy = false ∧ State.reset.inbox = [] ∧ stopped.status.busy = false ∧
    ({ stopped with inbox := [.wait] } : State).inbox = .wait :: [] := by decide

/-- Each act first in the inbox of a busy engine. -/
theorem witness_HostActsInOrder :
    (busyWith 0x01 [.write 0x03 1, .wait] State.reset).inbox = .write 0x03 1 :: [.wait] ∧
    (busyWith 0x01 [.read 0xFF] State.reset).inbox = .read 0xFF :: [] ∧
    (busyWith 0x01 [.storeMsg 0 1] (start (letters 1) 1 0)).inbox = .storeMsg 0 1 :: [] ∧
    (busyWith 0x01 [.bindMsg 1 [(0, 1)]] State.reset).inbox = .bindMsg 1 [(0, 1)] :: [] := by decide

/-- No host act to come, and the host waiting. -/
theorem witness_IllegalWordFaults :
    (((busyWith 0x3F [] State.reset).inbox = [] ∧ ([] : List HostAction) = []) ∧ (busyWith 0x3F [] State.reset).status.busy = true ∧
      ∃ e, decode (busyWith 0x3F [] State.reset).pend = .error e) ∧
    ((busyWith 0x3F [.wait, .read 1] State.reset).inbox = .wait :: [.read 1] ∧ (busyWith 0x3F [.wait, .read 1] State.reset).status.busy = true ∧
      ∃ e, decode (busyWith 0x3F [.wait, .read 1] State.reset).pend = .error e) :=
  ⟨⟨by decide, by decide, .reservedOpcode, by decide⟩, by decide, by decide, .reservedOpcode, by decide⟩

theorem witness_ResetActionRestores : (busyWith 0x0A [.reset, .wait] State.reset).inbox = .reset :: [.wait] := by decide

/-- The three cases of R102: busy, stopped, idle. -/
theorem witness_CommandAcceptance :
    (busyWith 0x06 [] State.reset).status.busy = true ∧ (stopped.status.busy = false ∧ stopped.status.err ≠ 0) ∧
    (State.reset.status.busy = false ∧ State.reset.status.err = 0) := by decide

/-- Busy; not busy, also when stopped. -/
theorem witness_OperandWrite :
    (busyWith 0x06 [] State.reset).status.busy = true ∧ State.reset.status.busy = false ∧ stopped.status.busy = false := by decide

/-- The numbers on both sides of the writable ones, and the ends of each range of numbers that name no register. -/
theorem witness_OtherAccessesIgnored :
    (∀ r ∈ [0x01, 0x02, 0x06, 0xFF, 0x100], r ≠ 0x00 ∧ r ≠ 0x03 ∧ r ≠ 0x04 ∧ r ≠ 0x05) ∧
    ∀ r ∈ [0x0C, 0x0F, 0x20, 0x7F, 0x100], (0x0C ≤ r ∧ r < 0x10) ∨ (0x20 ≤ r ∧ r < 0x80) ∨ 0x100 ≤ r := by decide

/-- Not busy, and the ends of each range of numbers that name no register. -/
theorem witness_HostReadReturnsRegister :
    State.reset.status.busy = false ∧
    ∀ r ∈ [0x0C, 0x0F, 0x20, 0x7F, 0x100], (0x0C ≤ r ∧ r < 0x10) ∨ (0x20 ≤ r ∧ r < 0x80) ∨ 0x100 ≤ r := by decide

theorem witness_HostReadWhileBusy : (busyWith 0x0A [] State.reset).status.busy = true := by decide

/-- The last offset of `TAIL` and `DIG`; the last one of `MSG`, still and with a window on it. -/
theorem witness_Get32leResult :
    ((tailAt 124).off.toNat + 4 ≤ spaceSize (tailAt 124) .tail ∧ Readable (tailAt 124) .tail (tailAt 124).off.toNat 4) ∧
    ((digAt 12).off.toNat + 4 ≤ spaceSize (digAt 12) .dig ∧ Readable (digAt 12) .dig (digAt 12).off.toNat 4) ∧
    ((start (letters 8) 8 4).off.toNat + 4 ≤ spaceSize (start (letters 8) 8 4) .msg ∧
      Readable (start (letters 8) 8 4) .msg (start (letters 8) 8 4).off.toNat 4) ∧
    (window.off.toNat + 4 ≤ spaceSize window .msg ∧ Readable window .msg window.off.toNat 4) := by unfold Readable; decide

theorem witness_Get32beResult :
    ((tailAt 124).off.toNat + 4 ≤ spaceSize (tailAt 124) .tail ∧ Readable (tailAt 124) .tail (tailAt 124).off.toNat 4) ∧
    ((digAt 0).off.toNat + 4 ≤ spaceSize (digAt 0) .dig ∧ Readable (digAt 0) .dig (digAt 0).off.toNat 4) ∧
    ((start (letters 4) 4 0).off.toNat + 4 ≤ spaceSize (start (letters 4) 4 0) .msg ∧
      Readable (start (letters 4) 4 0) .msg (start (letters 4) 4 0).off.toNat 4) := by unfold Readable; decide

theorem witness_Put32leResult : (operands 124 1).off.toNat + 4 ≤ bufSize .tail ∧ (operands 12 1).off.toNat + 4 ≤ bufSize .dig := by decide
theorem witness_Put64leResult : (operands 120 1).off.toNat + 8 ≤ bufSize .tail ∧ (operands 8 1).off.toNat + 8 ≤ bufSize .dig := by decide
theorem witness_Put64beResult : (operands 120 1).off.toNat + 8 ≤ bufSize .tail ∧ (operands 8 1).off.toNat + 8 ≤ bufSize .dig := by decide

/-- Words with the opcode of INIT and of DIGEST and other bits 5:4. -/
theorem witness_InitResult : (0x16 : Word).extractLsb' 0 4 = 0x6 ∧ (0x16 : Word).extractLsb' 4 2 ≠ 0 := by decide
theorem witness_DigestResult : (0x29 : Word).extractLsb' 0 4 = 0x9 ∧ (0x29 : Word).extractLsb' 4 2 ≠ 0 := by decide

/-- Lengths on both sides of the change from two to three descriptors, and one with no leftover byte. -/
theorem witness_PlanNumbers :
    ∀ n ∈ [0, 55, 56, 63, 64], Readable (start (counting n) n 0) .msg
      ((start (counting n) n 0).len.toNat - (start (counting n) n 0).len.toNat % 64) ((start (counting n) n 0).len.toNat % 64) := by
  unfold Readable; decide

/-- The same lengths, and for each a `k` of every branch. -/
theorem witness_PlanTailLayout :
    (∀ n ∈ [0, 55, 56, 63, 64], Readable (start (counting n) n 0) .msg
      ((start (counting n) n 0).len.toNat - (start (counting n) n 0).len.toNat % 64) ((start (counting n) n 0).len.toNat % 64)) ∧
    (54 < 55 % 64 ∧ 55 = 55 % 64) ∧ (56 ≤ 63 ∧ 63 < 56 + 8 ∧ ¬ (64 < 56 + 8)) ∧ (120 ≤ 127 ∧ 127 < 120 + 8 ∧ ¬ (120 ≤ 119)) := by
  unfold Readable; decide

/-- The last block of a message and of `TAIL`. -/
theorem witness_BlockResult :
    ((start (counting 65) 65 1).off.toNat + 64 ≤ (start (counting 65) 65 1).len.toNat ∧
      Readable (start (counting 65) 65 1) .msg (start (counting 65) 65 1).off.toNat 64) ∧
    (tailAt 64).off.toNat + 64 ≤ 128 := by unfold Readable; decide

theorem witness_HashIsMd5 :
    ([0x61, 0x62, 0x63] : List Byte).length = (start (letters 3) 3 0).len.toNat ∧ BytesAt (start (letters 3) 3 0) .msg 0 [0x61, 0x62, 0x63] := by
  unfold BytesAt; decide

theorem witness_HashLeavesPlan : Readable (start (letters 3) 3 0) .msg 0 (start (letters 3) 3 0).len.toNat := by unfold Readable; decide

theorem witness_HashIsComponentScript :
    ∀ n ∈ [3, 56, 120], (start (counting n) n 0).status.busy = false ∧ (start (counting n) n 0).status.err = 0 ∧ (start (counting n) n 0).msgOld = [] ∧
      (start (counting n) n 0).len.toNat ≤ (start (counting n) n 0).msg.extent := by decide

/-- One message that can be read and one that cannot. -/
theorem witness_SequencerRefinesHash : runHash (start (letters 2) 3 0) = none ∧ ∃ u, runHash (start ⟨[], 0⟩ 0 0) = some u := ⟨by decide, _, rfl⟩

theorem witness_RoundRotatesRoles : ∀ i ∈ [0, 15, 16, 31, 32, 47, 48, 63], i < 64 := by decide
theorem witness_CompressFollowsRounds : ((0x80 : Byte) :: List.replicate 63 0).length = 64 ∧ 15 < 16 ∧ 63 < 64 := by decide
theorem witness_TableFormulas : ∀ i ∈ [0, 15, 16, 31, 32, 47, 48, 63], i < 64 := by decide
theorem witness_RotateWraps : (1 ≤ 1 ∧ 1 ≤ 31) ∧ (1 ≤ 31 ∧ 31 ≤ 31) := by decide

/-- The same 64 zero bytes, in `TAIL` and in a message. -/
theorem witness_BlockDependsOnBytesOnly :
    Space.tail ≠ .dig ∧ Space.msg ≠ .dig ∧ State.reset.hash = (start ⟨[], 64⟩ 64 0).hash ∧
    State.reset.off.toNat + 64 ≤ spaceSize State.reset .tail ∧ (start ⟨[], 64⟩ 64 0).off.toNat + 64 ≤ spaceSize (start ⟨[], 64⟩ 64 0) .msg ∧
    Readable State.reset .tail State.reset.off.toNat 64 ∧ Readable (start ⟨[], 64⟩ 64 0) .msg (start ⟨[], 64⟩ 64 0).off.toNat 64 ∧
    ∀ i < 64, memByte State.reset .tail (State.reset.off.toNat + i) = memByte (start ⟨[], 64⟩ 64 0) .msg ((start ⟨[], 64⟩ 64 0).off.toNat + i) := by
  unfold Readable; decide

/-- The first offset out of bounds of each width and space. -/
theorem witness_BoundsFault :
    (access .get32leTail = some (.tail, 4) ∧ spaceSize (tailAt 125) .tail < (tailAt 125).off.toNat + 4) ∧
    (access .put64beDig = some (.dig, 8) ∧ spaceSize (digAt 9) .dig < (digAt 9).off.toNat + 8) ∧
    (access .blockTail = some (.tail, 64) ∧ spaceSize (tailAt 65) .tail < (tailAt 65).off.toNat + 64) ∧
    (access .get32leMsg = some (.msg, 4) ∧ spaceSize (start (letters 3) 3 0) .msg < (start (letters 3) 3 0).off.toNat + 4) := by decide

/-- A clause each: a get, BLOCK, PLAN, HASH, one byte beyond the extent; and a message just long enough. -/
theorem witness_MsgFault :
    ((start (letters 6) 8 3).msgOld = [] ∧ (start (letters 6) 8 3).off.toNat + 4 ≤ (start (letters 6) 8 3).len.toNat ∧
      (start (letters 6) 8 3).msg.extent < (start (letters 6) 8 3).off.toNat + 4) ∧
    ((start (counting 63) 64 0).off.toNat + 64 ≤ (start (counting 63) 64 0).len.toNat ∧
      (start (counting 63) 64 0).msg.extent < (start (counting 63) 64 0).off.toNat + 64) ∧
    ((start (letters 2) 3 0).len.toNat % 64 ≠ 0 ∧ (start (letters 2) 3 0).msg.extent < (start (letters 2) 3 0).len.toNat) ∧
    ((start (letters 3) 3 0).len.toNat ≤ (start (letters 3) 3 0).msg.extent ∧ (start (letters 3) 3 0).status.err = 0 ∧
      ∃ t, exec .plan (start (letters 3) 3 0) = .next t) := by
  refine ⟨by decide, by decide, by decide, by decide, by decide, _, rfl⟩

theorem witness_GoodCommandCompletes :
    (start (letters 8) 8 4).msgOld = [] ∧ (start (letters 8) 8 4).len.toNat ≤ (start (letters 8) 8 4).msg.extent ∧
    ∀ S n, access .get32leMsg = some (S, n) → (start (letters 8) 8 4).off.toNat + n ≤ spaceSize (start (letters 8) 8 4) S := by
  refine ⟨by decide, by decide, ?_⟩
  rintro S n h
  simp only [access, Option.some.injEq, Prod.mk.injEq] at h
  obtain ⟨rfl, rfl⟩ := h
  decide

theorem witness_PlanReadsNothingAtMultipleOf64 : (start ⟨[], 0⟩ 64 0).len.toNat % 64 = 0 ∧ State.reset.len.toNat % 64 = 0 := by decide

/-- A byte within the extent, and the first one beyond it. -/
theorem witness_ReadsOldOrNewByte : memByte (start (letters 3) 3 0) .msg 2 = some 0x63 ∧ memByte (start (letters 3) 3 0) .msg 3 = none := by decide

/-- The last byte, a command in flight and none. -/
theorem witness_ChangedByteReadsOldOrNew :
    ((busyWith 0x01 [] (start (letters 4) 4 0)).msgOld = [] ∧ 3 < (busyWith 0x01 [] (start (letters 4) 4 0)).msg.extent ∧
      (busyWith 0x01 [] (start (letters 4) 4 0)).status.busy = true ∧ 2 ≠ 3) ∧
    ((start (letters 4) 4 0).msgOld = [] ∧ 3 < (start (letters 4) 4 0).msg.extent ∧ (start (letters 4) 4 0).status.busy = false) := by decide

/-- A busy engine with bytes in its spaces and a command to execute. -/
theorem witness_StepKeepsInvariant : ∃ s t, Inv s ∧ s.status.busy = true ∧ s.tail ≠ [] ∧ s.msg.cells ≠ [] ∧ step s = .next t := by
  refine ⟨busyWith 0x09 [] { tailAt 0 with msg := letters 3, len := 3 }, _, ?_, by decide, by decide, by decide, rfl⟩
  exact ⟨by decide, by decide, by decide, by decide, ⟨by decide, by decide⟩, fun _ h => by simp [busyWith, tailAt, start, accept, State.reset] at h, by decide, by decide, by decide, by decide, by decide,
    by decide, by decide, by decide, fun _ => .inl rfl⟩

theorem witness_StoppedUntilReset :
    Stopped { stopped with inbox := [.write 0x00 0x06] } ∧ ¬ ResetNext { stopped with inbox := [.write 0x00 0x06] } ∧
    ∃ t, step { stopped with inbox := [.write 0x00 0x06] } = .next t := by
  refine ⟨by unfold Stopped; decide, ?_, _, rfl⟩
  rintro ⟨rest, h⟩
  simp at h

/-- A write while busy, and the engine's own step with `OVR` set before. -/
theorem witness_OverrunIsSticky :
    (¬ ResetNext (busyWith 0x06 [.write 0x05 1] State.reset) ∧ (∃ t, step (busyWith 0x06 [.write 0x05 1] State.reset) = .next t) ∧
      (busyWith 0x06 [.write 0x05 1] State.reset).status.busy = true) ∧
    (¬ ResetNext (overrun (busyWith 0x06 [] State.reset)) ∧ (∃ t, step (overrun (busyWith 0x06 [] State.reset)) = .next t) ∧
      (overrun (busyWith 0x06 [] State.reset)).status.ovr = true) := by
  refine ⟨⟨?_, ⟨_, rfl⟩, by decide⟩, ⟨?_, ⟨_, rfl⟩, by decide⟩⟩ <;> rintro ⟨rest, h⟩ <;> simp [busyWith, overrun] at h

/-- INIT on a hash state that is not `IV`, and a `Reset` of one. -/
theorem witness_HashStateWriters :
    (∃ t, step (busyWith 0x06 [] { State.reset with hash := ⟨1, 2, 3, 4⟩ }) = .next t ∧
      t.hash ≠ (busyWith 0x06 [] { State.reset with hash := ⟨1, 2, 3, 4⟩ }).hash) ∧
    (∃ t, step { State.reset with hash := ⟨1, 2, 3, 4⟩, inbox := [.reset] } = .next t ∧ t.hash ≠ ⟨1, 2, 3, 4⟩) :=
  ⟨⟨_, rfl, by decide⟩, ⟨_, rfl, by decide⟩⟩

/-- A command that completes and a word that faults. -/
theorem witness_CommandEndsInOneOfTwoWays :
    ∀ w ∈ [(0x06 : Word), 0x3F], EngineNext (busyWith w [] State.reset) ∧ (busyWith w [] State.reset).status.busy = true ∧
      (busyWith w [] State.reset).status.err = 0 ∧ (after (step (busyWith w [] State.reset)) (·.pend)).isSome = true := by
  intro w hw
  refine ⟨.inl rfl, rfl, rfl, ?_⟩
  simp only [List.mem_cons, List.not_mem_nil, or_false] at hw
  rcases hw with rfl | rfl <;> decide

/-- Two states whose messages differ beyond `LEN`, whose hash state and `TAIL` differ. -/
theorem witness_HashOwesNothing :
    (start (letters 3) 3 0).len = ({ tailAt 7 with hash := ⟨1, 2, 3, 4⟩, msg := letters 9, len := 3 } : State).len ∧
    (start (letters 3) 3 0).msgOld = [] ∧ ({ tailAt 7 with hash := ⟨1, 2, 3, 4⟩, msg := letters 9, len := 3 } : State).msgOld = [] ∧
    (start (letters 3) 3 0).len.toNat ≤ (start (letters 3) 3 0).msg.extent ∧
    ({ tailAt 7 with hash := ⟨1, 2, 3, 4⟩, msg := letters 9, len := 3 } : State).len.toNat ≤ (letters 9).extent ∧
    ∀ k < (start (letters 3) 3 0).len.toNat, Memory.read (start (letters 3) 3 0).msg.cells k = Memory.read (letters 9).cells k := by decide

theorem witness_BusyWriteDoesNotDisturb : (busyWith 0x0A [] State.reset).status.busy = true := by decide

/-- The last length whose bit length fits, and the first one whose bit length does not. -/
theorem witness_BitLengthWraps : (0x1FFFFFFFFFFFFFFF : DWord).toNat < 2 ^ 61 ∧ ¬ (0x2000000000000000 : DWord).toNat < 2 ^ 61 := by decide

/-- `z` at 55 and 56 bytes (section 1.3). -/
theorem witness_PaddingReachesMultipleOf64 :
    (55 + 1 + 0 + 8) % 64 = 0 ∧ zeros 55 = 0 ∧ chunkCount 55 = 2 ∧ (56 + 1 + 63 + 8) % 64 = 0 ∧ zeros 56 = 63 ∧ chunkCount 56 = 3 := by decide

end Sys2Proof.Tests
end

section
/-! SUPPORT. The host's acts as steps (R10, R20). -/

namespace Sys2Proof.Machine

/-- Only `wait` hands the step to the engine: any other act that stands next is itself the step (R10, R20; log 1). -/
theorem step_of_inbox_cons {s : State} {a : HostAction} {rest : List HostAction} (h : s.inbox = a :: rest) (ha : a ≠ .wait) :
    step s = .next (hostAct a { s with inbox := rest }) := by
  have not_engine : ∀ acts, ¬ (s.inbox = [] ∧ acts = [] ∨ s.inbox = .wait :: acts) := by
    intro acts; simp [h, ha]
  rcases step_cases s with ⟨b, rest', hb, -, hs⟩ | ⟨acts, hi, -⟩ | ⟨acts, hi, -⟩
  · obtain ⟨rfl, rfl⟩ : a = b ∧ rest = rest' := by simpa [h] using hb
    exact hs
  · exact absurd hi (not_engine acts)
  · exact absurd hi (not_engine acts)

/-- Settles O7: each of the four acts is not `wait`, so it is the step, and `hostAct` names what it does. -/
theorem hostActsInOrder : Obligations.HostActsInOrder := by
  intro s rest
  exact ⟨fun _ _ h => step_of_inbox_cons h nofun, fun _ h => step_of_inbox_cons h nofun,
    fun _ _ h => step_of_inbox_cons h nofun, fun _ _ h => step_of_inbox_cons h nofun⟩

end Sys2Proof.Machine
end

section
/-! SUPPORT. The invariant of the machine: the updates that keep it, and so every step (R27 to R36, R40, R224, R256). -/

namespace Sys2Proof

open Sys2Proof.Machine

section Updates

variable {s : State}

/-- The invariant says nothing of `H`, the operands, the internal registers, the host's side and the count of draws. -/
theorem Inv.frame (h : Inv s) {k : HashState} {l o v : DWord} {p : Word} {x : Work} {w : Vector Word 16} {acts : List HostAction}
    {r : Option (Nat × DWord)} {d : Nat} :
    Inv { s with hash := k, len := l, off := o, val := v, pend := p, work := x, words := w, inbox := acts, lastRead := r, draws := d } :=
  { h with seq_idle := h.seq_idle }

theorem Inv.tail_update (h : Inv s) {m : Memory} (hm : Memory.wf m = true ∧ Memory.below 128 m = true) : Inv { s with tail := m } :=
  { h with tail_wf := hm.1, tail_below := hm.2 }

theorem Inv.dig_update (h : Inv s) {m : Memory} (hm : Memory.wf m = true ∧ Memory.below 16 m = true) : Inv { s with dig := m } :=
  { h with dig_wf := hm.1, dig_below := hm.2 }

/-- The plan registers of a length keep the bound of R29, since a length is below 2^64. -/
theorem Inv.plan_update (h : Inv s) (L : DWord) :
    Inv { s with nblk := BitVec.ofNat 64 (blockCount L.toNat), planinfo := planInfoOf L.toNat } :=
  { h with
    nblk_bound := fun _ => by
      have := L.isLt
      rw [toNat_blockCount, blockCount]
      omega
    planinfo := fun _ => .inr ⟨L.toNat, rfl⟩ }

theorem Inv.overrun (h : Inv s) : Inv (overrun s) := { h with seq_idle := h.seq_idle }

/-- A command is accepted by an engine neither busy nor stopped (R102), so with no window on the message. -/
theorem Inv.accept (h : Inv s) (herr : s.status.err = 0) (w : Word) : Inv (accept w s) :=
  { h with
    busy_err := fun _ => herr
    busy_done := fun _ => rfl
    err_done := fun _ => rfl
    window := nofun }

/-- A message put in place of another: while busy the one it replaces joins the window (R256). -/
theorem Inv.changeMsg (h : Inv s) {m : Message} (hm : MessageOk m) : Inv (changeMsg m s) := by
  have hold : ∀ v ∈ (Machine.changeMsg m s).msgOld, MessageOk v := by
    rw [changeMsg_msgOld]
    split
    · exact List.forall_mem_cons.mpr ⟨h.msg_ok, h.old_ok⟩
    · exact h.old_ok
  have hwindow : s.status.busy = false → (Machine.changeMsg m s).msgOld = [] := fun hb => by simp [hb, h.window hb]
  exact { h with msg_ok := hm, old_ok := hold, window := hwindow }

/-- The end of a command (R105). -/
theorem Inv.finish (h : Inv s) (herr : s.status.err = 0) : Inv (finish s) :=
  { h with
    old_ok := nofun
    busy_err := nofun
    busy_done := nofun
    err_done := fun hne => absurd herr hne
    seq_idle := rfl
    window := fun _ => rfl }

/-- Fault entry with a code of R35 other than MSG_FAULT (R226). -/
theorem Inv.raiseFault (h : Inv s) (herr : s.status.err = 0) {code : BitVec 4} (hlow : code.toNat ≤ 3) (hne : code ≠ 0) :
    Inv (raiseFault code s) :=
  have hmsg : s.status.err ≠ errMsgFault := by rw [herr]; decide
  { h with
    old_ok := nofun
    err_code := hlow
    busy_err := nofun
    busy_done := nofun
    err_done := fun _ => rfl
    errinfo := fun he => absurd he hne
    seq_idle := rfl
    window := fun _ => rfl
    nblk_bound := fun _ => h.nblk_bound hmsg
    planinfo := fun _ => h.planinfo hmsg }

/-- The free bytes a write set leaves in `TAIL` and `DIG` are a canonical `TAIL` and `DIG` (R224). -/
theorem clobber_buffers_ok (h : Inv s) (ws : WriteSet) :
    (Memory.wf (clobber ws s).tail = true ∧ Memory.below 128 (clobber ws s).tail = true) ∧
      (Memory.wf (clobber ws s).dig = true ∧ Memory.below 16 (clobber ws s).dig = true) := by
  have htail := And.intro h.tail_wf h.tail_below
  have hdig := And.intro h.dig_wf h.dig_below
  cases ws with
  | val | hash => exact ⟨htail, hdig⟩
  | plan => exact ⟨freeTail_ok s.draws, hdig⟩
  | whole => exact ⟨freeTail_ok s.draws, freeDig_ok s.draws⟩

/-- MSG_FAULT (R224): `NBLK` and `PLANINFO` may hold anything, the byte spaces stay canonical. -/
theorem Inv.raiseMsgFault (h : Inv s) (ws : WriteSet) : Inv (raiseMsgFault ws s) := by
  obtain ⟨⟨htw, htb⟩, hdw, hdb⟩ := clobber_buffers_ok h ws
  constructor <;> simp [htw, htb, hdw, hdb, h.msg_ok]

/-- The state of R48 with any message bound. -/
theorem inv_reset {m : Message} (hm : MessageOk m) : Inv { State.reset with msg := m } := by
  constructor <;> simp [State.reset, hm, Memory.wf, Memory.wfFrom, Memory.below]

theorem Inv.resetAction (h : Inv s) : Inv (resetAction s) := (inv_reset h.msg_ok).frame

end Updates

theorem Inv.storeMsg {s : State} (h : Inv s) (off : Nat) (b : Byte) : Inv (storeMsg off b s) := by
  unfold Machine.storeMsg
  split
  · next hlt => exact h.changeMsg ⟨wf_write off b h.msg_ok.wf, below_write b hlt h.msg_ok.below⟩
  · exact h

theorem Inv.bindMsg {s : State} (h : Inv s) (extent : Nat) (cells : List Host.Cell) : Inv (bindMsg extent cells s) := by
  have hcells : ∀ c ∈ cells.filter fun c => decide (c.1 < extent), c.1 < extent := fun c hc => by simpa using (List.mem_filter.mp hc).2
  obtain ⟨hwf, hbelow⟩ := ofCells_ok _ hcells
  exact h.changeMsg ⟨hwf, hbelow⟩

theorem Inv.hostWrite {s : State} (h : Inv s) (reg : Nat) (v : DWord) : Inv (hostWrite reg v s) := by
  rcases hostWrite_cases reg v s with ⟨-, -, he⟩ | ⟨-, he | ⟨-, -, herr, he⟩ | ⟨-, he | he | he⟩⟩ <;> rw [he]
  · exact h.overrun
  · exact h
  · exact h.accept herr _
  all_goals exact h.frame

/-- Every act of the host keeps the invariant (R20). -/
theorem Inv.hostAct {s : State} (h : Inv s) (a : HostAction) : Inv (hostAct a s) := by
  cases a with
  | write reg v => exact h.hostWrite reg v
  | read reg =>
    obtain ⟨v, d, he⟩ := hostRead_cases reg s
    rw [Machine.hostAct, he]
    exact h.frame
  | reset => exact h.resetAction
  | storeMsg off b => exact h.storeMsg off b
  | bindMsg extent cells => exact h.bindMsg extent cells
  | wait => exact h

theorem formatDigest_eq (s : State) : formatDigest s = { s with dig := Memory.writeBytes s.dig 0 (serialize s.hash) } := rfl

/-- DIGEST writes offsets 0 to 15 of `DIG` (R191). -/
theorem Inv.formatDigest {s : State} (h : Inv s) : Inv (formatDigest s) := by
  rw [formatDigest_eq]
  exact h.dig_update ⟨wf_writeBytes _ _ h.dig_wf, below_writeBytes _ (by simp) h.dig_below⟩

theorem Inv.memWrite {s : State} (h : Inv s) {B : Buffer} {off : Nat} {bs : List Byte}
    (hin : off + bs.length ≤ spaceSize s (bufferSpace B)) : Inv (memWrite s B off bs) := by
  cases B with
  | tail => exact h.tail_update ⟨wf_writeBytes _ _ h.tail_wf, below_writeBytes _ hin h.tail_below⟩
  | dig => exact h.dig_update ⟨wf_writeBytes _ _ h.dig_wf, below_writeBytes _ hin h.dig_below⟩

theorem Inv.runPlan {s t : State} (h : Inv s) (hp : runPlan s = some t) : Inv t := by
  obtain ⟨left, hleft, rfl⟩ := runPlan_some hp
  obtain ⟨hlen, -⟩ := memRead_some hleft
  exact (h.tail_update (tailContents_ok hlen)).plan_update s.len

/-- The effect of a command, before it finishes, keeps the invariant. -/
theorem Inv.effect {s u : State} (h : Inv s) (he : Effect s u) : Inv u := by
  cases he with
  | val | hash => exact h.frame
  | stored B o bs hin => exact h.memWrite hin
  | plan _ hp => exact h.runPlan hp
  | digest => exact h.formatDigest
  | whole _ hh =>
    obtain ⟨t, k, hp, -, rfl⟩ := runHash_some hh
    have ht : Inv { t with hash := k } := (h.runPlan hp).frame
    exact ht.formatDigest

/-- A command executed by an engine that has not faulted keeps the invariant, whether it completes or faults. -/
theorem Inv.exec {s t : State} (h : Inv s) (herr : s.status.err = 0) {i : Instr} (ht : exec i s = .next t) : Inv t := by
  rcases exec_cases i s with ⟨u, hu, he⟩ | he | ⟨ws, he⟩ <;> cases he.symm.trans ht
  · obtain ⟨-, -, -, -, -, -, hstatus, -⟩ := hu.keeps
    exact (h.effect hu).finish (by rw [hstatus, herr])
  · exact h.raiseFault herr (by decide) (by decide)
  · exact h.raiseMsgFault ws

/-- Settles O45: the reset state is the one with the empty message. -/
theorem resetMeetsInvariant : Obligations.ResetMeetsInvariant :=
  inv_reset (m := ⟨[], 0⟩) ⟨rfl, rfl⟩

/-- Settles O46: a step is an act of the host, the end or the fault of a command, or nothing. -/
theorem stepKeepsInvariant : Obligations.StepKeepsInvariant := by
  intro s t h ht
  rcases step_cases s with ⟨a, rest, -, -, hs⟩ | ⟨acts, -, -, hs⟩ | ⟨acts, -, hbusy, ⟨i, -, hs⟩ | ⟨e, -, hs⟩⟩
  · cases hs.symm.trans ht
    have hacts : Inv { s with inbox := rest } := h.frame
    exact hacts.hostAct a
  · cases hs.symm.trans ht
    exact h.frame
  · have hacts : Inv { s with inbox := acts } := h.frame
    exact hacts.exec (h.busy_err hbusy) (hs.symm.trans ht)
  · cases hs.symm.trans ht
    have hacts : Inv { s with inbox := acts } := h.frame
    exact hacts.raiseFault (h.busy_err hbusy) (by decide) (by decide)

end Sys2Proof
end

section
/-! SUPPORT. What a step leaves alone: the operands and the message (R24, R25, R70), `OVR` (R34) and the hash state (R23). -/

namespace Sys2Proof.Machine

open Sys2Proof.Claims

/-- What a command keeps whether it completes or faults. -/
theorem exec_frame {s t : State} {i : Instr} (h : exec i s = .next t) :
    t.len = s.len ∧ t.off = s.off ∧ t.msg = s.msg ∧ t.status.ovr = s.status.ovr := by
  rcases exec_cases i s with ⟨u, hu, he⟩ | he | ⟨ws, he⟩ <;> cases he.symm.trans h
  · obtain ⟨hlen, hoff, hmsg, -, -, -, hstatus, -⟩ := hu.keeps
    simp [hlen, hoff, hmsg, hstatus]
  all_goals simp

/-- Settles O50: every command answers a next state, and none touches these three. -/
theorem engineNeverWritesOperands : Obligations.EngineNeverWritesOperands := by
  intro s i
  obtain ⟨t, ht⟩ := exec_next i s
  obtain ⟨hlen, hoff, hmsg, -⟩ := exec_frame ht
  exact ⟨t, ht, hlen, hoff, hmsg⟩

@[simp] theorem hostRead_status (reg : Nat) (s : State) : (hostRead reg s).status = s.status := by
  obtain ⟨v, d, h⟩ := hostRead_cases reg s
  rw [h]

@[simp] theorem hostRead_hash (reg : Nat) (s : State) : (hostRead reg s).hash = s.hash := by
  obtain ⟨v, d, h⟩ := hostRead_cases reg s
  rw [h]

@[simp] theorem storeMsg_status (off : Nat) (b : Byte) (s : State) : (storeMsg off b s).status = s.status := by
  unfold storeMsg
  split <;> rfl

@[simp] theorem storeMsg_hash (off : Nat) (b : Byte) (s : State) : (storeMsg off b s).hash = s.hash := by
  unfold storeMsg
  split <;> rfl

@[simp] theorem bindMsg_status (n : Nat) (cells : List Host.Cell) (s : State) : (bindMsg n cells s).status = s.status := rfl

@[simp] theorem bindMsg_hash (n : Nat) (cells : List Host.Cell) (s : State) : (bindMsg n cells s).hash = s.hash := rfl

@[simp] theorem hostWrite_hash (reg : Nat) (v : DWord) (s : State) : (hostWrite reg v s).hash = s.hash := by
  rcases hostWrite_cases reg v s with ⟨-, -, h⟩ | ⟨-, h | ⟨-, -, -, h⟩ | ⟨-, h | h | h⟩⟩ <;> simp [h]

/-- A write sets `OVR` exactly when it is dropped (R34, R254). -/
theorem hostWrite_ovr (reg : Nat) (v : DWord) (s : State) :
    (hostWrite reg v s).status.ovr = true ↔
      s.status.ovr = true ∨ (s.status.busy = true ∧ (reg = 0x00 ∨ reg = 0x03 ∨ reg = 0x04 ∨ reg = 0x05)) := by
  rcases hostWrite_cases reg v s with ⟨hbusy, hreg, h⟩ | ⟨hno, hkept⟩
  · rw [h]
    exact iff_of_true rfl (.inr ⟨hbusy, hreg⟩)
  · have hovr : (hostWrite reg v s).status.ovr = s.status.ovr := by
      rcases hkept with h | ⟨-, -, -, h⟩ | ⟨-, h | h | h⟩ <;> simp [h]
    rw [hovr, or_iff_left hno]

/-- The host's acts reach `STATUS` by a write and by `Reset` only. -/
theorem hostAct_status {a : HostAction} (hreset : a ≠ .reset) (hwrite : ∀ reg v, a ≠ .write reg v) (s : State) :
    (hostAct a s).status = s.status := by
  cases a with
  | write reg v => exact absurd rfl (hwrite reg v)
  | reset => exact absurd rfl hreset
  | read | storeMsg | bindMsg | wait => simp [hostAct]

/-- The host's acts reach `H` by `Reset` only. -/
theorem hostAct_hash {a : HostAction} (hreset : a ≠ .reset) (s : State) : (hostAct a s).hash = s.hash := by
  cases a with
  | reset => exact absurd rfl hreset
  | write | read | storeMsg | bindMsg | wait => simp [hostAct]

/-- A step of the engine leaves `OVR` as it was, and so does an act of the host that is neither a write nor `Reset`. -/
theorem step_ovr {s t : State} (hreset : ¬ ResetNext s) (hwrite : ∀ reg v rest, s.inbox ≠ .write reg v :: rest) (h : step s = .next t) :
    t.status.ovr = s.status.ovr := by
  rcases step_cases s with ⟨a, rest, ha, -, hs⟩ | ⟨acts, -, -, hs⟩ | ⟨acts, -, -, ⟨i, -, hs⟩ | ⟨e, -, hs⟩⟩
  · cases hs.symm.trans h
    rw [hostAct_status (fun e => hreset ⟨rest, e ▸ ha⟩) (fun reg v e => hwrite reg v rest (e ▸ ha))]
  · cases hs.symm.trans h
    rfl
  · obtain ⟨-, -, -, hovr⟩ := exec_frame (hs.symm.trans h)
    exact hovr
  · cases hs.symm.trans h
    rfl

/-- Settles O48: a write while busy is the one act that sets `OVR`. -/
theorem overrunIsSticky : Obligations.OverrunIsSticky := by
  intro s t hreset h
  by_cases hw : ∃ reg v rest, s.inbox = .write reg v :: rest
  · obtain ⟨reg, v, rest, hin⟩ := hw
    cases (step_of_inbox_cons hin nofun).symm.trans h
    simp [hostAct, hostWrite_ovr, hin]
  · rw [step_ovr hreset (fun reg v rest hin => hw ⟨reg, v, rest, hin⟩) h]
    refine (or_iff_left ?_).symm
    rintro ⟨-, reg, v, rest, hin, -⟩
    exact hw ⟨reg, v, rest, hin⟩

theorem getCommand_hash {get : State → Space → Nat → Option Word} {S : Space} {s t : State} (h : getCommand get S s = .next t) :
    t.hash = s.hash := by
  rcases getCommand_cases get S s with ⟨-, w, -, he⟩ | ⟨-, -, he⟩ | ⟨-, he⟩ <;> cases he.symm.trans h <;> rfl

theorem putCommand_hash {n : Nat} {B : Buffer} {put : State → Buffer → Nat → State} {s t : State}
    (h : putCommand n B put s = .next t) (hput : (put s B s.off.toNat).hash = s.hash) : t.hash = s.hash := by
  rcases putCommand_cases n B put s with ⟨-, he⟩ | ⟨-, he⟩ <;> cases he.symm.trans h
  · exact hput
  · rfl

theorem execPlan_hash {s t : State} (h : execPlan s = .next t) : t.hash = s.hash := by
  unfold execPlan at h
  split at h <;> cases h
  · next u hu =>
    obtain ⟨left, -, rfl⟩ := runPlan_some hu
    rfl
  · rfl

/-- Every command but INIT, BLOCK and HASH keeps the hash state, faults included (R23). -/
theorem exec_hash_of_not_writesHash {i : Instr} (hi : writesHash i = false) {s t : State} (h : exec i s = .next t) : t.hash = s.hash := by
  cases i with
  | get32leMsg | get32leTail | get32leDig | get32beMsg | get32beTail | get32beDig =>
    simp only [exec_get32leMsg, exec_get32leTail, exec_get32leDig, exec_get32beMsg, exec_get32beTail, exec_get32beDig] at h
    exact getCommand_hash h
  | put32leTail | put32leDig | put64leTail | put64leDig | put64beTail | put64beDig =>
    simp only [exec_put32leTail, exec_put32leDig, exec_put64leTail, exec_put64leDig, exec_put64beTail, exec_put64beDig] at h
    exact putCommand_hash h rfl
  | plan => exact execPlan_hash h
  | digest => cases h; rfl
  | init | blockMsg | blockTail | hash => cases hi

/-- Settles O49: no host act but `Reset` reaches `H`, and of the commands only those that write it. -/
theorem hashStateWriters : Obligations.HashStateWriters := by
  intro s t h hne
  rcases step_cases s with ⟨a, rest, ha, -, hs⟩ | ⟨acts, -, -, hs⟩ | ⟨acts, hturn, hbusy, ⟨i, hi, hs⟩ | ⟨e, -, hs⟩⟩
  · cases hs.symm.trans h
    by_cases hreset : a = .reset
    · exact .inl ⟨rest, hreset ▸ ha⟩
    · exact absurd (hostAct_hash hreset _) hne
  · cases hs.symm.trans h
    exact absurd rfl hne
  · have hnext : EngineNext s := hturn.imp And.left fun hw => ⟨acts, hw⟩
    refine .inr ⟨hnext, hbusy, i, hi, ?_⟩
    by_contra hw
    have hkeep := exec_hash_of_not_writesHash (Bool.eq_false_of_not_eq_true hw) (hs.symm.trans h)
    exact hne hkeep
  · cases hs.symm.trans h
    exact absurd rfl hne

end Sys2Proof.Machine
end

section
/-! SUPPORT. No command reads `A` to `D`, `W` or `SEQ` (R38, R39, R43): what every shared operation does with other values there. -/

namespace Sys2Proof.Machine

/-- The state with other values in `A` to `D`, `W` and `SEQ`. -/
def withInternal (x : Work) (w : Vector Word 16) (q : Seq) (s : State) : State := { s with work := x, words := w, seq := q }

section

variable (x : Work) (w : Vector Word 16) (q : Seq) (s : State)

@[simp] theorem withInternal_off : (withInternal x w q s).off = s.off := rfl

/-- A command that completes leaves fresh values there, whatever stood there before. -/
@[simp] theorem finish_withInternal : finish (withInternal x w q s) = finish s := rfl

/-- So does MSG_FAULT. -/
@[simp] theorem raiseMsgFault_withInternal (ws : WriteSet) : raiseMsgFault ws (withInternal x w q s) = raiseMsgFault ws s := by
  cases ws <;> rfl

@[simp] theorem inBounds_withInternal (S : Space) (n : Nat) : inBounds (withInternal x w q s) S n = inBounds s S n := by
  cases S <;> rfl

@[simp] theorem memRead_withInternal (S : Space) (off n : Nat) : memRead (withInternal x w q s) S off n = memRead s S off n :=
  memRead_congr fun _ _ => memByte_congr rfl rfl rfl rfl rfl _ _

@[simp] theorem getU32Le_withInternal (S : Space) (off : Nat) : getU32Le (withInternal x w q s) S off = getU32Le s S off := by
  simp only [getU32Le, memRead_withInternal]

@[simp] theorem getU32Be_withInternal (S : Space) (off : Nat) : getU32Be (withInternal x w q s) S off = getU32Be s S off := by
  simp only [getU32Be, memRead_withInternal]

theorem memWrite_withInternal (B : Buffer) (off : Nat) (bs : List Byte) :
    memWrite (withInternal x w q s) B off bs = withInternal x w q (memWrite s B off bs) := by
  cases B <;> rfl

theorem runPlan_withInternal : runPlan (withInternal x w q s) = (runPlan s).map (withInternal x w q) := by
  have hread := memRead_withInternal x w q s .msg (s.len.toNat - lengthMod64 s.len.toNat) (lengthMod64 s.len.toNat)
  cases hs : memRead s .msg (s.len.toNat - lengthMod64 s.len.toNat) (lengthMod64 s.len.toNat) with
  | none =>
    rw [runPlan_none_iff.mpr hs, runPlan_none_iff.mpr (hread.trans hs)]
    rfl
  | some left =>
    rw [runPlan_of_read hs, runPlan_of_read (hread.trans hs)]
    rfl

theorem compressBlocks_withInternal (S : Space) (off n : Nat) (h : HashState) :
    compressBlocks (withInternal x w q s) S off n h = compressBlocks s S off n h :=
  compressBlocks_congr fun _ _ => memByte_congr rfl rfl rfl rfl rfl _ _

theorem compressPlan_withInternal : compressPlan (withInternal x w q s) = compressPlan s := by
  simp only [compressPlan_eq, compressBlocks_withInternal]
  rfl

theorem runHash_withInternal : runHash (withInternal x w q s) = (runHash s).map (withInternal x w q) := by
  rw [runHash_eq, runHash_eq, runPlan_withInternal]
  cases runPlan s with
  | none => rfl
  | some t =>
    simp only [Option.map_some, Option.bind_some, compressPlan_withInternal]
    cases compressPlan t <;> rfl

/-- A command ends in the same state whatever stood in the internal registers, or else in BOUNDS, which keeps what stood there (log 7). -/
def EndsAlike (command : State → Result) : Prop :=
  command (withInternal x w q s) = command s ∨
    (command s = .next (raiseFault errBounds s) ∧
      command (withInternal x w q s) = .next (raiseFault errBounds (withInternal x w q s)))

/-- Behind a bounds check the internal registers matter only to what a command does within bounds (R223). -/
theorem endsAlike_of_inBounds {command : State → Result} (S : Space) (n : Nat)
    (hout : ∀ t, ¬ inBounds t S n → command t = .next (raiseFault errBounds t))
    (hin : inBounds s S n → command (withInternal x w q s) = command s) : EndsAlike x w q s command := by
  by_cases h : inBounds s S n
  · exact .inl (hin h)
  · exact .inr ⟨hout s h, hout _ (by rwa [inBounds_withInternal])⟩

theorem endsAlike_getCommand {get : State → Space → Nat → Option Word} (S : Space)
    (hget : ∀ off, get (withInternal x w q s) S off = get s S off) : EndsAlike x w q s (getCommand get S) := by
  refine endsAlike_of_inBounds x w q s S 4 (fun t ht => if_neg ht) fun hin => ?_
  unfold getCommand
  rw [inBounds_withInternal, if_pos hin, if_pos hin, hget, withInternal_off]
  cases get s S s.off.toNat with
  | none => simp
  | some v => rfl

theorem endsAlike_putCommand (n : Nat) (B : Buffer) {put : State → Buffer → Nat → State}
    (hput : ∀ off, put (withInternal x w q s) B off = withInternal x w q (put s B off)) : EndsAlike x w q s (putCommand n B put) := by
  refine endsAlike_of_inBounds x w q s (bufferSpace B) n (fun t ht => if_neg ht) fun hin => ?_
  unfold putCommand
  rw [inBounds_withInternal, if_pos hin, if_pos hin, hput, finish_withInternal, withInternal_off]

theorem endsAlike_blockCommand (S : Space) : EndsAlike x w q s (blockCommand S) := by
  refine endsAlike_of_inBounds x w q s S 64 (fun t ht => if_neg ht) fun hin => ?_
  unfold blockCommand
  rw [inBounds_withInternal, if_pos hin, if_pos hin, memRead_withInternal, withInternal_off]
  cases memRead s S s.off.toNat 64 with
  | none => simp
  | some blk => exact congrArg Host.Outcome.next (finish_withInternal x w q { s with hash := compress s.hash blk })

theorem execPlan_withInternal : execPlan (withInternal x w q s) = execPlan s := by
  unfold execPlan
  rw [runPlan_withInternal]
  cases runPlan s <;> simp

theorem execHash_withInternal : execHash (withInternal x w q s) = execHash s := by
  unfold execHash
  rw [runHash_withInternal]
  cases runHash s <;> simp

/-- Every command ends alike (R38, R39, R43). -/
theorem endsAlike_exec (i : Instr) : EndsAlike x w q s (exec i) := by
  cases i with
  | get32leMsg | get32leTail | get32leDig => exact endsAlike_getCommand x w q s _ (getU32Le_withInternal x w q s _)
  | get32beMsg | get32beTail | get32beDig => exact endsAlike_getCommand x w q s _ (getU32Be_withInternal x w q s _)
  | put32leTail | put32leDig | put64leTail | put64leDig | put64beTail | put64beDig =>
    simp only [EndsAlike, exec_put32leTail, exec_put32leDig, exec_put64leTail, exec_put64leDig, exec_put64beTail, exec_put64beDig]
    refine endsAlike_putCommand x w q s _ _ fun off => ?_
    exact memWrite_withInternal x w q s _ off _
  | blockMsg | blockTail => exact endsAlike_blockCommand x w q s _
  | init | digest => exact .inl rfl
  | plan => exact .inl (execPlan_withInternal x w q s)
  | hash => exact .inl (execHash_withInternal x w q s)

end

/-- Settles O52: the two executions end in the same state, or both in BOUNDS, which records the same code and word. -/
theorem internalRegistersNeverRead : Obligations.InternalRegistersNeverRead := by
  intro s i x w q
  rcases endsAlike_exec x w q s i with h | ⟨h, h'⟩
  · obtain ⟨t, ht⟩ := exec_next i s
    exact ⟨t, t, ht, h.trans ht, by constructor <;> rfl, rfl⟩
  · exact ⟨_, _, h, h', by constructor <;> rfl, rfl⟩

end Sys2Proof.Machine
end

section
/-! SUPPORT. The register words bit by bit (R30, R31, R47), the values of reset (R48, R250), and accesses that name no register of their kind (R46). -/

namespace Sys2Proof.Machine

/-- Settles O9: each bit and each field is one part of the concatenation of R31. -/
theorem statusRegisterBits : Obligations.StatusRegisterBits := by
  intro st
  have hbits : st.word.getLsbD 0 = st.busy ∧ st.word.getLsbD 1 = st.done ∧ st.word.getLsbD 2 = st.ovr ∧ st.word.getLsbD 3 = false := by
    simp only [Status.word, BitVec.getLsbD_append]
    simp
  have hfields : st.word.extractLsb' 4 4 = st.err ∧ st.word.extractLsb' 8 24 = 0 := by
    constructor <;>
      simp only [Status.word, BitVec.extractLsb'_append_eq_of_le, Nat.reduceLeDiff, Nat.reduceSub, BitVec.extractLsb'_append_eq_right,
        BitVec.extractLsb'_eq_self]
  obtain ⟨hbusy, hdone, hovr, hreserved⟩ := hbits
  exact ⟨hbusy, hdone, hovr, hreserved, hfields⟩

/-- Settles O10: each field, and each gap between two, is one part of the concatenation of R30. -/
theorem planInfoRegisterBits : Obligations.PlanInfoRegisterBits := by
  intro p
  have hgap : p.word.getLsbD 15 = false := by
    simp only [PlanInfo.word, BitVec.getLsbD_append]
    simp
  refine ⟨?_, ?_, ?_, hgap, ?_, ?_, ?_, ?_⟩ <;>
    simp only [PlanInfo.word, BitVec.extractLsb'_append_eq_of_le, Nat.reduceLeDiff, Nat.reduceSub, BitVec.extractLsb'_append_eq_right,
      BitVec.extractLsb'_eq_self]

@[simp] theorem read_nil (a : Nat) : Memory.read [] a = 0 := rfl

/-- The cleared `PLANINFO` and `STATUS` read 0 as words. -/
theorem cleared_words : (PlanInfo.word ⟨0, 0, 0, 0⟩ = 0) ∧ Status.word ⟨false, false, false, 0⟩ = 0 := by decide

/-- Settles O11: field by field, an empty memory reading 0x00 everywhere. -/
theorem resetValues : Obligations.ResetValues :=
  ⟨rfl, rfl, rfl, rfl, read_nil, read_nil, rfl, cleared_words.1, cleared_words.2, rfl, rfl⟩

/-- Settles O12: `Reset` is an act of the host, so it is the step whether the engine is busy or not. -/
theorem resetActionRestores : Obligations.ResetActionRestores := by
  intro s rest h
  exact ⟨resetAction { s with inbox := rest }, step_of_inbox_cons h nofun, rfl, rfl, rfl, rfl, read_nil, read_nil, rfl,
    cleared_words.1, cleared_words.2, rfl, rfl, rfl, rfl⟩

/-- Only `CMD`, `LEN`, `OFF` and `VAL` can be written (R46). -/
theorem hostWrite_of_not_writable {reg : Nat} (h0 : reg ≠ 0x00) (h3 : reg ≠ 0x03) (h4 : reg ≠ 0x04) (h5 : reg ≠ 0x05) (v : DWord)
    (s : State) : hostWrite reg v s = s := by
  unfold hostWrite
  split
  · exact absurd rfl h0
  · exact absurd rfl h3
  · exact absurd rfl h4
  · exact absurd rfl h5
  · rfl

/-- A number that names no register reads 0, busy or not (R46, log 17). -/
theorem hostRead_of_unnamed {reg : Nat} (h : (0x0C ≤ reg ∧ reg < 0x10) ∨ (0x20 ≤ reg ∧ reg < 0x80) ∨ 0x100 ≤ reg) (s : State) :
    hostRead reg s = { s with lastRead := some (reg, 0) } := by
  have hresult : resultReg reg = false := decide_eq_false (by omega)
  have hvalue : regValue s reg = 0 := by
    unfold regValue
    repeat rw [if_neg (by omega)]
  unfold hostRead
  rw [hresult, Bool.and_false, if_neg Bool.false_ne_true, hvalue]

/-- Settles O15: the write half and the read half of R46. -/
theorem otherAccessesIgnored : Obligations.OtherAccessesIgnored := fun s _ =>
  ⟨fun v h0 h3 h4 h5 => hostWrite_of_not_writable h0 h3 h4 h5 v s, fun h => hostRead_of_unnamed h s⟩

end Sys2Proof.Machine
end

section
/-! SUPPORT. The codec over the byte spaces: what a get reads and a put stores (R62 to R66, R69 to R71), and the commands that run them (R120 to R125). -/

namespace Sys2Proof.Machine

open Sys2Proof.Claims

/-- A command that completes does what R105 says of every such command. -/
theorem Effect.completed {s u : State} (h : Effect s u) : Completed s (finish u) := by
  obtain ⟨hlen, hoff, hmsg, -, hinbox, hread, hstatus, herrinfo, -⟩ := h.keeps
  simp [Completed, hlen, hoff, hmsg, hinbox, hread, hstatus, herrinfo]

/-- The byte of `MSG` below the extent of every version in the window is there, whichever version is picked (R256). -/
theorem memByte_msg_ne_none {s : State} {off : Nat} (h : ∀ v ∈ s.msg :: s.msgOld, off < v.extent) : memByte s .msg off ≠ none := by
  simp [memByte, Message.byteAt, h _ (msgVersion_mem s off)]

/-- A read of readable bytes meets no error of the read port (R69). -/
theorem memRead_of_readable {s : State} {S : Space} {off n : Nat} (h : Readable s S off n) : ∃ bs, memRead s S off n = some bs := by
  refine Option.ne_none_iff_exists'.mp fun hnone => ?_
  obtain ⟨i, hi, hbyte⟩ := memRead_none_iff.mp hnone
  cases S with
  | tail | dig => cases hbyte
  | msg =>
    rcases h rfl with hzero | hextent
    · omega
    · exact memByte_msg_ne_none (fun v hv => by have := hextent v hv; omega) hbyte

section Get

/-- Both gets of four bytes that are there. -/
theorem getU32_of_memRead {s : State} {S : Space} {off : Nat} {b0 b1 b2 b3 : Byte} (h : memRead s S off 4 = some [b0, b1, b2, b3]) :
    getU32Le s S off = some (wordLe b0 b1 b2 b3) ∧ getU32Be s S off = some (wordBe b0 b1 b2 b3) :=
  ⟨getU32Le_some_iff.mpr ⟨b0, b1, b2, b3, h, rfl⟩, getU32Be_some_iff.mpr ⟨b0, b1, b2, b3, h, rfl⟩⟩

/-- `get_u32_be` as a sum of its bytes (R63). -/
theorem wordBe_toNat (a b c d : Byte) : (wordBe a b c d).toNat = 2 ^ 24 * a.toNat + 2 ^ 16 * b.toNat + 2 ^ 8 * c.toNat + d.toNat := by
  rw [wordBe_eq, wordLe_toNat]
  omega

theorem exec_get32le (S : Space) (s : State) : exec (get32le S) s = getCommand getU32Le S s := by cases S <;> rfl

theorem exec_get32be (S : Space) (s : State) : exec (get32be S) s = getCommand getU32Be S s := by cases S <;> rfl

variable {s : State} {S : Space}

/-- In bounds, a get that succeeds completes (R120). -/
theorem getCommand_of_some {get : State → Space → Nat → Option Word} {w : Word} (hin : s.off.toNat + 4 ≤ spaceSize s S)
    (hget : get s S s.off.toNat = some w) : getCommand get S s = .next (finish { s with val := w.setWidth 64 }) := by
  rcases getCommand_cases get S s with ⟨-, w', hw', he⟩ | ⟨-, hnone, -⟩ | ⟨hout, -⟩
  · cases hw'.symm.trans hget
    exact he
  · cases hnone.symm.trans hget
  · omega

/-- The four bytes of a readable operand, as the engine reads them. -/
theorem four_bytes_of_readable {off : Nat} (h : Readable s S off 4) :
    ∃ b0 b1 b2 b3, memRead s S off 4 = some [b0, b1, b2, b3] ∧ BytesAt s S off [b0, b1, b2, b3] := by
  obtain ⟨bs, hread⟩ := memRead_of_readable h
  obtain ⟨b0, b1, b2, b3, rfl⟩ := memRead_four hread
  exact ⟨b0, b1, b2, b3, hread, (memRead_some hread).2⟩

/-- A get changes `VAL` alone (R121, R122). -/
theorem val_frame {s t : State} {v : DWord} (h : t = finish { s with val := v }) :
    Completed s t ∧ KeepsHash s t ∧ KeepsPlan s t ∧ KeepsTail s t ∧ KeepsDig s t := by
  subst h
  exact ⟨(Effect.val v).completed, rfl, ⟨rfl, rfl⟩, fun _ => rfl, fun _ => rfl⟩

end Get

/-- Settles O18: the bytes are there, so `get_u32_le` gives their sum. -/
theorem get32leResult : Obligations.Get32leResult := by
  intro s S hin hreadable
  obtain ⟨b0, b1, b2, b3, hread, hbytes⟩ := four_bytes_of_readable hreadable
  exact ⟨_, b0, b1, b2, b3, (exec_get32le S s).trans (getCommand_of_some hin (getU32_of_memRead hread).1), hbytes,
    (BitVec.toNat_setWidth_of_le (by decide)).trans (wordLe_toNat b0 b1 b2 b3), val_frame rfl⟩

/-- Settles O19: as for GET32LE, with the sum in the other order. -/
theorem get32beResult : Obligations.Get32beResult := by
  intro s S hin hreadable
  obtain ⟨b0, b1, b2, b3, hread, hbytes⟩ := four_bytes_of_readable hreadable
  exact ⟨_, b0, b1, b2, b3, (exec_get32be S s).trans (getCommand_of_some hin (getU32_of_memRead hread).2), hbytes,
    (BitVec.toNat_setWidth_of_le (by decide)).trans (wordBe_toNat b0 b1 b2 b3), val_frame rfl⟩

section Put

@[simp] theorem memByte_bufferSpace (s : State) (B : Buffer) (off : Nat) : memByte s (bufferSpace B) off = some (bufByte s B off) := by
  cases B <;> rfl

@[simp] theorem spaceSize_bufferSpace (s : State) (B : Buffer) : spaceSize s (bufferSpace B) = bufSize B := by
  cases B <;> rfl

@[simp] theorem bufByte_finish (s : State) (B : Buffer) (a : Nat) : bufByte (finish s) B a = bufByte s B a := by
  cases B <;> rfl

/-- Every byte of a buffer after a write to it (R70). -/
theorem bufByte_memWrite (s : State) (B : Buffer) (off : Nat) (bs : List Byte) (a : Nat) :
    bufByte (memWrite s B off bs) B a = if off ≤ a ∧ a < off + bs.length then bs.getD (a - off) 0 else bufByte s B a := by
  cases B <;> exact read_writeBytes _ off a bs

/-- A write to one buffer leaves the other alone (R70). -/
theorem bufByte_memWrite_of_ne {B C : Buffer} (h : C ≠ B) (s : State) (off : Nat) (bs : List Byte) (a : Nat) :
    bufByte (memWrite s B off bs) C a = bufByte s C a := by
  match B, C, h with
  | .tail, .dig, _ | .dig, .tail, _ => rfl

theorem bytesStored_memWrite (s : State) (B : Buffer) (off : Nat) (bs : List Byte) : BytesStored s (memWrite s B off bs) B off bs := by
  refine ⟨fun i hi => ?_, fun a ha => ?_, fun C a hC => bufByte_memWrite_of_ne hC s off bs a⟩
  · rw [bufByte_memWrite, if_pos (by omega), Nat.add_sub_cancel_left]
  · rw [bufByte_memWrite, if_neg (by omega)]

/-- What was stored is what is read there, whole. -/
theorem memRead_of_bytesStored {s t : State} {B : Buffer} {off : Nat} {bs : List Byte} (h : BytesStored s t B off bs) :
    memRead t (bufferSpace B) off bs.length = some bs :=
  memRead_of_bytes fun i hi => by rw [memByte_bufferSpace, h.1 i hi]

/-- The course of a put within bounds (R120): its bytes are stored and only they change. -/
theorem putCommand_stores {s : State} {B : Buffer} {put : State → Buffer → Nat → State} {bs : List Byte}
    (hin : s.off.toNat + bs.length ≤ bufSize B) (hput : put s B s.off.toNat = memWrite s B s.off.toNat bs) :
    ∃ t, putCommand bs.length B put s = .next t ∧ BytesStored s t B s.off.toNat bs ∧
      Completed s t ∧ KeepsHash s t ∧ KeepsVal s t ∧ KeepsPlan s t := by
  rw [← spaceSize_bufferSpace s] at hin
  rcases putCommand_cases bs.length B put s with ⟨-, he⟩ | ⟨hout, -⟩
  · rw [hput] at he
    refine ⟨_, he, ?_, (Effect.stored B s.off.toNat bs hin).completed, ?_⟩
    · simpa only [BytesStored, bufByte_finish] using bytesStored_memWrite s B s.off.toNat bs
    · simp [KeepsHash, KeepsVal, KeepsPlan]
  · omega

theorem exec_put32le (B : Buffer) (s : State) :
    exec (put32le B) s = putCommand 4 B (fun s B o => putU32Le s B o (s.val.extractLsb' 0 32)) s := by cases B <;> rfl

theorem exec_put64le (B : Buffer) (s : State) : exec (put64le B) s = putCommand 8 B (fun s B o => putU64Le s B o s.val) s := by
  cases B <;> rfl

theorem exec_put64be (B : Buffer) (s : State) : exec (put64be B) s = putCommand 8 B (fun s B o => putU64Be s B o s.val) s := by
  cases B <;> rfl

end Put

/-- Settles O20: the four bytes of `VAL[31:0]` are byte fields of `VAL`, and read together they make it again. -/
theorem put32leResult : Obligations.Put32leResult := by
  intro s B hin
  obtain ⟨t, he, hstored, hframe⟩ := putCommand_stores (put := fun s B o => putU32Le s B o (s.val.extractLsb' 0 32)) hin
    (congrArg (memWrite s B s.off.toNat) (bytesLe32_extract s.val 0))
  obtain ⟨hget, -⟩ := getU32_of_memRead (memRead_of_bytesStored hstored)
  exact ⟨t, (exec_put32le B s).trans he, hstored, hget.trans (congrArg some (wordLe_extract s.val 0)), hframe⟩

/-- Settles O21: the bytes stored are those of `put_u64_le`. -/
theorem put64leResult : Obligations.Put64leResult := by
  intro s B hin
  rw [exec_put64le]
  exact putCommand_stores (bs := bytesLe64 s.val) hin rfl

/-- Settles O22: the bytes stored are those of `put_u64_be`. -/
theorem put64beResult : Obligations.Put64beResult := by
  intro s B hin
  rw [exec_put64be]
  exact putCommand_stores (bs := bytesBe64 s.val) hin rfl

section MixedWidths

/-- The bytes of a 32-bit field in the other order are its byte fields read the other way (R71). -/
theorem reverseBytes_extract (v : DWord) (k : Nat) : reverseBytes (v.extractLsb' k 32) =
    wordBe (v.extractLsb' k 8) (v.extractLsb' (k + 8) 8) (v.extractLsb' (k + 16) 8) (v.extractLsb' (k + 24) 8) := by
  have hbytes := bytesLe32_extract v k
  simp only [bytesLe32, List.cons.injEq] at hbytes
  obtain ⟨h0, h1, h2, h3, -⟩ := hbytes
  rw [reverseBytes, h0, h1, h2, h3, wordBe]

/-- The eight bytes of a doubleword are those of its low half, then those of its high half (R65). -/
theorem bytesLe64_eq_append (v : DWord) : bytesLe64 v = bytesLe32 (v.extractLsb' 0 32) ++ bytesLe32 (v.extractLsb' 32 32) := by
  rw [bytesLe32_extract, bytesLe32_extract]
  rfl

theorem writeBytes_append (m : Memory) (x : Nat) (bs cs : List Byte) :
    Memory.writeBytes m x (bs ++ cs) = Memory.writeBytes (Memory.writeBytes m x bs) (x + bs.length) cs := by
  induction bs generalizing m x with
  | nil => rfl
  | cons b bs ih =>
    rw [List.cons_append, Memory.writeBytes, ih, List.length_cons, Memory.writeBytes, Nat.add_right_comm, Nat.add_assoc]

/-- Bytes written in two runs, one behind the other, are written in one. -/
theorem memWrite_append (s : State) (B : Buffer) (off : Nat) (bs cs : List Byte) :
    memWrite s B off (bs ++ cs) = memWrite (memWrite s B off bs) B (off + bs.length) cs := by
  cases B <;> simp only [memWrite, writeBytes_append]

/-- Two puts of the halves for one put of the whole (R71). -/
theorem putU64Le_eq_putU32Le (s : State) (B : Buffer) (off : Nat) (v : DWord) :
    putU64Le s B off v = putU32Le (putU32Le s B off (v.extractLsb' 0 32)) B (off + 4) (v.extractLsb' 32 32) := by
  rw [putU64Le_eq, bytesLe64_eq_append, memWrite_append]
  rfl

/-- A byte the later of two writes covers is as that one leaves it, any other as the earlier one leaves it (R70, R71). -/
theorem bufByte_memWrite_memWrite (s : State) (B : Buffer) (off1 off2 : Nat) (bs1 bs2 : List Byte) (a : Nat) :
    bufByte (memWrite (memWrite s B off1 bs1) B off2 bs2) B a =
      if off2 ≤ a ∧ a < off2 + bs2.length then bufByte (memWrite s B off2 bs2) B a else bufByte (memWrite s B off1 bs1) B a := by
  by_cases h : off2 ≤ a ∧ a < off2 + bs2.length
  · rw [if_pos h, bufByte_memWrite, if_pos h, bufByte_memWrite, if_pos h]
  · rw [if_neg h, bufByte_memWrite, if_neg h]

end MixedWidths

/-- Settles O23: the eight bytes stored are read back in two halves of four, each of them a 32-bit field of the value in one order or the other. -/
theorem mixedWidthsAgree : Obligations.MixedWidthsAgree := by
  intro s B off v
  obtain ⟨hleLow, hleHigh⟩ := memRead_split (n := 4) (m := 4) (memRead_of_bytesStored (bytesStored_memWrite s B off (bytesLe64 v)))
  obtain ⟨hbeHigh, hbeLow⟩ := memRead_split (n := 4) (m := 4) (memRead_of_bytesStored (bytesStored_memWrite s B off (bytesBe64 v)))
  obtain ⟨leLe0, leBe0⟩ := getU32_of_memRead hleLow
  obtain ⟨leLe4, leBe4⟩ := getU32_of_memRead hleHigh
  obtain ⟨beLe0, beBe0⟩ := getU32_of_memRead hbeHigh
  obtain ⟨beLe4, beBe4⟩ := getU32_of_memRead hbeLow
  have low := congrArg some (wordLe_extract v 0)
  have high := congrArg some (wordLe_extract v 32)
  have lowReversed := congrArg some (reverseBytes_extract v 0).symm
  have highReversed := congrArg some (reverseBytes_extract v 32).symm
  exact ⟨leLe0.trans low, leLe4.trans high, beBe0.trans high, beBe4.trans low,
    leBe0.trans lowReversed, leBe4.trans highReversed, beLe0.trans highReversed, beLe4.trans lowReversed,
    fun a => by rw [putU64Le_eq_putU32Le], bufByte_memWrite_memWrite s B⟩

/-- A plan that can be made completes PLAN (R147). -/
theorem execPlan_of_some {s t : State} (h : runPlan s = some t) : execPlan s = .next (finish t) := by
  rw [execPlan, h]

/-- Settles O42: no byte is left over, and a read of no bytes succeeds. -/
theorem planReadsNothingAtMultipleOf64 : Obligations.PlanReadsNothingAtMultipleOf64 := by
  intro s hlen
  have hread : memRead s .msg (s.len.toNat - lengthMod64 s.len.toNat) (lengthMod64 s.len.toNat) = some [] := by
    rw [lengthMod64, hlen, memRead]
  have hplan := runPlan_of_read hread
  exact ⟨_, execPlan_of_some hplan, (Effect.plan _ hplan).completed⟩

end Sys2Proof.Machine
end

section
/-! SUPPORT. The decoder over all 2^32 words (R96, R97, R99): a word whose field ZERO is not 0 is refused, and the other words are 64. -/

namespace Sys2Proof

/-- The command word with BUF `b` and OP `o` whose field ZERO is 0 (R91). -/
def fieldWord (b : BitVec 2) (o : BitVec 4) : Word := (0#26 ++ b ++ o : BitVec (26 + 2 + 4))

theorem eq_fieldWord {w : Word} (h : zeroField w = 0) : w = fieldWord (bufField w) (opField w) := by
  rw [fieldWord, ← BitVec.ofNat_eq_ofNat, ← h]
  exact word_fields w

/-- A statement about every word is one about the words that have a reserved bit set, and one about the fields BUF and OP. -/
theorem forall_word {P : Word → Prop} (reserved : ∀ w, zeroField w ≠ 0 → P w) (fields : ∀ b o, P (fieldWord b o)) (w : Word) : P w := by
  by_cases h : zeroField w = 0
  · exact eq_fieldWord h ▸ fields _ _
  · exact reserved w h

/-- The decoder drops no bit (R99). -/
theorem eq_encode_of_decode {w : Word} {i : Instr} (h : decode w = .ok i) : w = encode i := by
  induction w using forall_word with
  | reserved w hz => exact nomatch (decode_of_zeroField_ne hz).symm.trans h
  | fields b o =>
    have table : ∀ b o, ∀ i ∈ (decode (fieldWord b o)).toOption, fieldWord b o = encode i := by decide
    exact table b o i (by rw [h]; rfl)

/-- Settles O2: the table of R96 is read forth by `decode_encode` and back by `eq_encode_of_decode`. -/
theorem decodeIffEncode : Obligations.DecodeIffEncode := by
  intro w i
  constructor
  · exact eq_encode_of_decode
  · rintro rfl
    exact decode_encode i

theorem illegalReason_of_zeroField_ne {w : Word} (h : zeroField w ≠ 0) : illegalReason w = some .reservedBits := by
  rw [illegalReason, if_pos (by simpa using h)]

/-- The decoder refuses a word for the clause of R97 that it breaks. -/
theorem decode_eq_error_iff (w : Word) (e : IllegalWord) : decode w = .error e ↔ illegalReason w = some e := by
  induction w using forall_word with
  | reserved w hz => simp [decode_of_zeroField_ne hz, illegalReason_of_zeroField_ne hz]
  | fields b o => revert b o; cases e <;> decide

/-- A chain of clauses gives a reason exactly when its first clause holds or the rest of the chain gives one. -/
theorem exists_ite_eq_some {α : Type} {p : Prop} [Decidable p] {a : α} {r : Option α} :
    (∃ e, (if p then some a else r) = some e) ↔ p ∨ ∃ e, r = some e := by
  by_cases h : p <;> simp [h]

/-- Settles O3: the chain of `illegalReason`, clause by clause. -/
theorem illegalExactlyR97 : Obligations.IllegalExactlyR97 := by
  intro w
  simp only [decode_eq_error_iff, illegalReason, exists_ite_eq_some]
  simp [zeroField, bufField, opField, BitVec.le_def, or_assoc]

/-- Settles O1: ten words of the table, the opcode 0 of the first clause on OP, and bit 6 of the field ZERO. -/
theorem tableWordsDecode : Obligations.TableWordsDecode :=
  ⟨decode_encode .get32leMsg, decode_encode .get32beTail, decode_encode .put32leDig, decode_encode .put64leTail,
    decode_encode .put64beDig, decode_encode .init, decode_encode .plan, decode_encode .blockTail, decode_encode .digest,
    decode_encode .hash, (decode_eq_error_iff _ _).mpr rfl, decode_of_zeroField_ne (by decide)⟩

end Sys2Proof
end

section
/-! SUPPORT. The engine's step (R105) and what the host's accesses do to the engine (R102 to R104), case by case. -/

namespace Sys2Proof.Machine

theorem step_of_inbox_nil {s : State} (h : s.inbox = []) : step s = engineStep s := by
  rw [step, machineStep, h]

theorem step_of_inbox_wait {s : State} {rest : List HostAction} (h : s.inbox = .wait :: rest) :
    step s = engineStep { s with inbox := rest } := by
  rw [step, machineStep, h]

theorem engineStep_of_decode {s : State} {i : Instr} (hbusy : s.status.busy = true) (hd : decode s.pend = .ok i) :
    engineStep s = exec i s := by
  rw [engineStep, if_pos hbusy, hd]

theorem engineStep_of_not_busy {s : State} (h : s.status.busy = false) : engineStep s = .next s := by
  rw [engineStep, if_neg (by simp [h])]

/-- Settles O4: either way the step is the engine's, and it executes what `PEND` decodes to. -/
theorem stepRunsDecodedCommand : Obligations.StepRunsDecodedCommand := by
  intro s i hbusy hd
  exact ⟨fun h => (step_of_inbox_nil h).trans (engineStep_of_decode hbusy hd),
    fun _ h => (step_of_inbox_wait h).trans (engineStep_of_decode hbusy hd)⟩

/-- Settles O6: either way the step is the engine's, which has none. -/
theorem idleEngineDoesNothing : Obligations.IdleEngineDoesNothing := by
  intro s hidle
  exact ⟨fun h => (step_of_inbox_nil h).trans (engineStep_of_not_busy hidle),
    fun _ h => (step_of_inbox_wait h).trans (engineStep_of_not_busy hidle)⟩

/-- The step after a word has been placed is the engine's, on the state that has accepted it (R102, R105; log 3). -/
theorem step_offerWord (w : Word) (s : State) : step (offerWord w s) = engineStep (accept w s) := by
  unfold offerWord
  split
  · next hin =>
    rw [← hin]
    exact step_of_inbox_nil hin
  · exact step_of_inbox_wait rfl

/-- Settles O5: the state meant is the one that `accept` gives. -/
theorem placedWordIsExecuted : Obligations.PlacedWordIsExecuted := by
  intro s i
  have hstep : step (s.withFetchWord 32 (encode i).toNat) = exec i (accept (encode i) s) := by
    rw [State.withFetchWord, tableWord_encode, step_offerWord]
    exact engineStep_of_decode rfl (decode_encode i)
  have hvisible : SameVisible { s with status := (accept (encode i) s).status } (accept (encode i) s) := by
    constructor <;> rfl
  exact ⟨accept (encode i) s, hstep, rfl, rfl, rfl, hvisible, rfl, rfl, rfl, rfl⟩

theorem hostWrite_cmd (w : Word) (s : State) : hostWrite 0x00 (w.setWidth 64) s = writeCmd w s := by
  rw [hostWrite, BitVec.setWidth_setWidth_of_le _ (by decide), BitVec.setWidth_eq]

/-- Settles O13: the three cases of `writeCmd`, which do not look at the word. -/
theorem commandAcceptance : Obligations.CommandAcceptance := by
  intro s w
  rw [hostWrite_cmd, writeCmd]
  refine ⟨fun hbusy => ?_, fun hidle herr => ?_, fun hidle herr => ?_⟩
  · rw [if_pos hbusy, overrun]
  · rw [if_neg (by simp [hidle]), if_neg herr]
  · rw [if_neg (by simp [hidle]), if_pos herr, accept]

/-- Settles O14: the three operand registers are guarded by `BUSY` alone. -/
theorem operandWrite : Obligations.OperandWrite := by
  intro s v
  refine ⟨fun hbusy => ⟨if_pos hbusy, if_pos hbusy, if_pos hbusy⟩, fun hidle => ?_⟩
  have hfree : ¬ s.status.busy = true := by simp [hidle]
  exact ⟨if_neg hfree, if_neg hfree, if_neg hfree⟩

theorem hostRead_of_not_busy {s : State} (h : s.status.busy = false) (reg : Nat) :
    hostRead reg s = { s with lastRead := some (reg, regValue s reg) } := by
  rw [hostRead, h, Bool.false_and, if_neg Bool.false_ne_true]

theorem lastRead_hostRead_of_not_busy {s : State} (h : s.status.busy = false) {reg : Nat} {v : DWord} (hv : regValue s reg = v) :
    (hostRead reg s).lastRead = some (reg, v) := by
  rw [hostRead_of_not_busy h, hv]

theorem regValue_dig (s : State) {i : Nat} (h : i < 16) : regValue s (0x10 + i) = (Memory.read s.dig i).setWidth 64 := by
  unfold regValue
  iterate 11 rw [if_neg (by omega)]
  rw [if_pos (by omega), Nat.add_sub_cancel_left]

theorem regValue_tail (s : State) {i : Nat} (h : i < 128) : regValue s (0x80 + i) = (Memory.read s.tail i).setWidth 64 := by
  unfold regValue
  iterate 12 rw [if_neg (by omega)]
  rw [if_pos (by omega), Nat.add_sub_cancel_left]

/-- Settles O16: the value read is `regValue`, register by register. -/
theorem hostReadReturnsRegister : Obligations.HostReadReturnsRegister := by
  intro s hidle
  have hread : ∀ {reg v}, regValue s reg = v → (hostRead reg s).lastRead = some (reg, v) := lastRead_hostRead_of_not_busy hidle
  exact ⟨fun reg => ⟨_, hostRead_of_not_busy hidle reg⟩, hread rfl, hread rfl, hread rfl, hread rfl, hread rfl, hread rfl, hread rfl,
    hread rfl, hread rfl, hread rfl, hread rfl, hread rfl, fun _ h => hread (regValue_dig s h), fun _ h => hread (regValue_tail s h),
    fun _ h => by rw [hostRead_of_unnamed h]⟩

end Sys2Proof.Machine
end

section
/-! SUPPORT. The plan of PLAN as numbers (R141 to R143, R148) and the command that makes it (R147). -/

namespace Sys2Proof.Machine

open Sys2Proof.Claims

section Numbers

variable (L : Nat)

/-- The two cases of `zeros` on either side of the branch 55/56 (R149). -/
theorem zeros_eq : zeros L = if L % 64 < 56 then 55 - L % 64 else 119 - L % 64 := by
  unfold zeros room lengthMod64
  split <;> split <;> omega

theorem chunkCount_eq : chunkCount L = if L % 64 < 56 then 2 else 3 := by
  unfold chunkCount room lengthMod64
  split <;> split <;> omega

theorem trailerOffset_eq : trailerOffset L = if L % 64 < 56 then 56 else 120 := by
  rw [trailerOffset, zeros_eq, lengthMod64]
  split <;> omega

/-- The message, its marker, its zeros and its trailer fill the body blocks and the tail blocks (R148 (d)). -/
theorem paddedLength_eq : L + 1 + zeros L + 8 = 64 * (blockCount L + chunkCount L - 1) := by
  rw [zeros_eq, chunkCount_eq, blockCount]
  split <;> omega

/-- `zeros` is below the block size and fits in its field of `PLANINFO` (R30, R143). -/
theorem zeros_lt : zeros L < 64 := by
  rw [zeros_eq]
  split <;> omega

/-- `PLANINFO` of a length as a number: its fields lose no bit of the plan (R147). -/
theorem planInfoOf_word_toNat :
    (planInfoOf L).word.toNat = lengthMod64 L + 2 ^ 8 * room L + 2 ^ 16 * zeros L + 2 ^ 24 * chunkCount L := by
  have hroom : room L < 128 := by unfold room; omega
  have hchunks : chunkCount L < 4 := by unfold chunkCount; split <;> omega
  exact planInfo_word_toNat _ _ _ _ (lengthMod64_lt L) hroom (zeros_lt L) hchunks

end Numbers

theorem bitLength_toNat (L : Nat) : (bitLength L).toNat = L * 8 % 2 ^ 64 := BitVec.toNat_ofNat _ _

/-- Settles O55: three zero bits below the 61 low bits of `L` are `8 L` modulo 2^64, and below 2^61 the modulus changes nothing. -/
theorem bitLengthWraps : Obligations.BitLengthWraps := by
  intro L
  refine ⟨BitVec.eq_of_toNat_eq ?_, fun hexact => ?_⟩
  · have happend : (L.extractLsb' 0 61 ++ (0 : BitVec 3)).toNat = L.toNat % 2 ^ 61 * 2 ^ 3 := by
      rw [toNat_append_add, BitVec.extractLsb'_toNat]
      rfl
    rw [bitLength_toNat, happend]
    omega
  · rw [bitLength_toNat]
    omega

/-- Settles O56: the padded length is 64 times the number of blocks, and `zeros` is below 64. -/
theorem paddingReachesMultipleOf64 : Obligations.PaddingReachesMultipleOf64 := by
  intro L
  have hlength := paddedLength_eq L
  have hlt := zeros_lt L
  refine ⟨by omega, fun z hz => by omega, hlength, ?_⟩
  rw [trailerOffset_eq, chunkCount_eq]
  split <;> rfl

/-- PLAN makes its plan and completes when the leftover bytes can be read (R147). -/
theorem exec_plan_of_readable {s : State} (h : Readable s .msg (s.len.toNat - s.len.toNat % 64) (s.len.toNat % 64)) :
    ∃ t, runPlan s = some t ∧ exec .plan s = .next (finish t) := by
  obtain ⟨left, hread⟩ := memRead_of_readable h
  exact ⟨_, runPlan_of_read hread, execPlan_of_some (runPlan_of_read hread)⟩

/-- Settles O25: the numbers are those of the plan, and PLAN writes `TAIL`, `NBLK` and `PLANINFO` alone. -/
theorem planNumbers : Obligations.PlanNumbers := by
  intro s hreadable
  obtain ⟨t, hplan, hexec⟩ := exec_plan_of_readable hreadable
  have hcompleted := (Effect.plan t hplan).completed
  obtain ⟨left, -, rfl⟩ := runPlan_some hplan
  refine ⟨_, hexec, toNat_blockCount s.len, ?_, hcompleted, rfl, rfl, fun _ => rfl⟩
  rw [← zeros_eq, ← chunkCount_eq]
  exact planInfoOf_word_toNat s.len.toNat

/-- Settles O26: the layout of `TAIL` with the leftover bytes as the engine reads them and the trailer as bytes of a number. -/
theorem planTailLayout : Obligations.PlanTailLayout := by
  intro s hreadable
  obtain ⟨t, hplan, hexec⟩ := exec_plan_of_readable hreadable
  obtain ⟨left, hread, rfl⟩ := runPlan_some hplan
  obtain ⟨hlength, hbytes⟩ := memRead_some hread
  refine ⟨_, hexec, fun k => ?_⟩
  rw [finish_tail, read_tailContents hlength, ← trailerOffset_eq]
  unfold lengthMod64 at hbytes ⊢
  dsimp only
  split_ifs with hleft hmarker htrailer
  · rw [hbytes k hleft]
  · rfl
  · rw [bytesLe64_getD _ _ (by omega), bitLength_toNat]
  · rfl

end Sys2Proof.Machine
end

section
/-! SUPPORT. The compression core: the rotate as arithmetic (R172), the words of a block (R162), the rounds in order (R175) and unrolled (R179),
and the commands INIT and BLOCK that write the hash state (R160, R178). -/

namespace Sys2Proof.Machine

open Sys2Proof.Claims

section HashCommands

/-- A command whose effect is a new hash state changes `H` alone (R160, R178). -/
theorem hash_frame {s t : State} {k : HashState} (h : t = finish { s with hash := k }) :
    Completed s t ∧ KeepsVal s t ∧ KeepsPlan s t ∧ KeepsTail s t ∧ KeepsDig s t := by
  subst h
  exact ⟨(Effect.hash k).completed, rfl, ⟨rfl, rfl⟩, fun _ => rfl, fun _ => rfl⟩

theorem exec_block {S : Space} (h : S ≠ .dig) (s : State) : exec (block S) s = blockCommand S s := by
  cases S with
  | msg | tail => rfl
  | dig => contradiction

variable {s : State} {S : Space}

/-- In bounds, a BLOCK whose read succeeds completes (R178). -/
theorem blockCommand_of_read {blk : List Byte} (hin : s.off.toNat + 64 ≤ spaceSize s S) (hread : memRead s S s.off.toNat 64 = some blk) :
    blockCommand S s = .next (finish { s with hash := compress s.hash blk }) := by
  rcases blockCommand_cases S s with ⟨-, blk', hread', he⟩ | ⟨-, hnone, -⟩ | ⟨hout, -⟩
  · cases hread'.symm.trans hread
    exact he
  · cases hnone.symm.trans hread
  · omega

/-- In bounds and readable, BLOCK compresses the 64 bytes at `OFF`, changes `H` alone and completes, whichever space it names (R178). -/
theorem blockCommand_of_readable (hin : s.off.toNat + 64 ≤ spaceSize s S) (hreadable : Readable s S s.off.toNat 64) :
    ∃ t blk, blockCommand S s = .next t ∧ blk.length = 64 ∧ BytesAt s S s.off.toNat blk ∧ t.hash = compress s.hash blk ∧
      Completed s t ∧ KeepsVal s t ∧ KeepsPlan s t ∧ KeepsTail s t ∧ KeepsDig s t := by
  obtain ⟨blk, hread⟩ := memRead_of_readable hreadable
  obtain ⟨hlength, hbytes⟩ := memRead_some hread
  exact ⟨_, blk, blockCommand_of_read hin hread, hlength, fun i hi => hbytes i (hlength ▸ hi), finish_hash _, hash_frame rfl⟩

end HashCommands

/-- Settles O27: the shared course of BLOCK for the two spaces it may name; `TAIL` is always readable. -/
theorem blockResult : Obligations.BlockResult := fun _ =>
  ⟨fun hin hreadable => blockCommand_of_readable (S := .msg) hin hreadable,
    fun hin => blockCommand_of_readable (S := .tail) hin fun h => nomatch h⟩

/-- Settles O38: the 64 bytes of the one space are those the other BLOCK reads, so both compress the same block. -/
theorem blockDependsOnBytesOnly : Obligations.BlockDependsOnBytesOnly := by
  intro s s' S S' hS hS' hhash hin hin' hreadable _ hsame
  obtain ⟨blk, hread⟩ := memRead_of_readable hreadable
  obtain ⟨hlength, hbytes⟩ := memRead_some hread
  have hread' : memRead s' S' s'.off.toNat 64 = some blk :=
    memRead_eq_some hlength fun i hi => (hsame i hi).symm.trans (hbytes i hi)
  refine ⟨_, _, (exec_block hS s).trans (blockCommand_of_read hin hread), (exec_block hS' s').trans (blockCommand_of_read hin' hread'), ?_⟩
  rw [finish_hash, finish_hash, hhash]

/-- Settles O24: INIT is one assignment to `H`, and bits 5:4 of its word fall under the clause of R97 on a buffer that must be 0. -/
theorem initResult : Obligations.InitResult := by
  intro s
  obtain ⟨hcompleted, hval, hplan, htail, hdig⟩ := hash_frame (s := s) (k := HashState.iv) rfl
  refine ⟨_, exec_init s, rfl, hcompleted, hval, hplan, htail, hdig, decode_encode .init, fun w hop hbuf => ?_⟩
  exact (illegalExactlyR97 w).mpr (.inr (.inr (.inr (.inl ⟨.inl hop, hbuf⟩))))

/-- The block words by their index (R162). -/
theorem blockWords_getD (blk : List Byte) {i : Nat} (h : i < 16) : (blockWords blk).toList.getD i 0 = blockWord blk i := by
  interval_cases i <;> rfl

/-- A block word as the sum of its bytes (R162, R175). -/
theorem blockWord_toNat (blk : List Byte) (i : Nat) : (blockWord blk i).toNat =
    (blk.getD (4 * i) 0).toNat + 2 ^ 8 * (blk.getD (4 * i + 1) 0).toNat + 2 ^ 16 * (blk.getD (4 * i + 2) 0).toNat +
      2 ^ 24 * (blk.getD (4 * i + 3) 0).toNat :=
  wordLe_toNat _ _ _ _

section Rounds

variable (w : Vector Word 16) (x : Work)

/-- The working variables after the first `n` rounds in order (R175), a round being the table-driven `round w` or the unrolled step. -/
def afterRounds (f : Work → Nat → Work) (x : Work) (n : Nat) : Work := (List.range n).foldl f x

theorem afterRounds_zero (f : Work → Nat → Work) : afterRounds f x 0 = x := rfl

theorem afterRounds_succ (f : Work → Nat → Work) (n : Nat) : afterRounds f x (n + 1) = f (afterRounds f x n) n := by
  rw [afterRounds, List.range_succ, List.foldl_append]
  rfl

theorem rounds_eq_afterRounds : rounds w x = afterRounds (round w) x 64 := rfl

/-- The roles of the variables one round on (R173). -/
def turn (x : Work) : Work := ⟨x.d, x.a, x.b, x.c⟩

/-- After four rounds every variable is back in its role (R179). -/
theorem turn_iterate_mod (n : Nat) : turn^[n % 4] x = turn^[n] x :=
  Function.IsPeriodicPt.iterate_mod_apply (show Function.IsPeriodicPt turn 4 x from rfl) n

/-- A round on the variables in their roles is an unrolled step, with the roles turned one round on. -/
theorem round_turn (i : Nat) : round w (turn^[i] x) i = turn^[i + 1] (unrolledStep w x i) := by
  rw [Function.iterate_succ_apply', ← turn_iterate_mod x, ← turn_iterate_mod (unrolledStep w x i), unrolledStep]
  have hlt : i % 4 < 4 := Nat.mod_lt i (by decide)
  generalize i % 4 = r at hlt ⊢
  interval_cases r <;> rfl

/-- The table-driven form is the unrolled form with the variables in their roles, after any number of rounds. -/
theorem afterRounds_eq_turn (n : Nat) : afterRounds (round w) x n = turn^[n] (afterRounds (unrolledStep w) x n) := by
  induction n with
  | zero => rfl
  | succ n ih => rw [afterRounds_succ, ih, round_turn, afterRounds_succ]

end Rounds

/-- Settles O34: the sequence is `afterRounds` from the loaded variables. -/
theorem compressFollowsRounds : Obligations.CompressFollowsRounds := by
  intro h blk _
  refine ⟨fun i hi => by rw [blockWords_getD blk hi, blockWord_toNat], afterRounds (round (blockWords blk)) (loadWork h),
    afterRounds_zero _ _, fun i _ => afterRounds_succ _ _ i, ?_⟩
  rw [compress, rounds_eq_afterRounds, addBack]

/-- Settles O37: 64 rounds turn the roles 16 times round, so the two forms end on the same variables. -/
theorem unrolledRoundsAgree : Obligations.UnrolledRoundsAgree := by
  intro w x
  have hturn : rounds w x = turn^[64] (afterRounds (unrolledStep w) x 64) := afterRounds_eq_turn w x 64
  rw [hturn, ← turn_iterate_mod]
  rfl

/-- Settles O33: the four assignments of R173, with the function of the round's group. -/
theorem roundRotatesRoles : Obligations.RoundRotatesRoles := fun _ _ _ _ => ⟨rfl, rfl, rfl, rfl⟩

/-- Settles O35: the printed rows of R170 and R171 against their formulas, all 64 of them. -/
theorem tableFormulas : Obligations.TableFormulas := by
  unfold Obligations.TableFormulas
  decide

/-- A left-rotate by 1 to 31 as arithmetic: what is shifted up and what comes round share no bit (R172). -/
theorem rotl32_toNat (x : Word) {n : Nat} (hpos : 1 ≤ n) (hle : n ≤ 31) :
    (rotl32 x n).toNat = x.toNat * 2 ^ n % 2 ^ 32 + x.toNat / 2 ^ (32 - n) := by
  have hpow : 2 ^ 32 = 2 ^ (32 - n) * 2 ^ n := by rw [← Nat.pow_add, Nat.sub_add_cancel (by omega)]
  have hup : x.toNat * 2 ^ n % 2 ^ 32 = (x.toNat % 2 ^ (32 - n)) <<< n := by
    rw [Nat.shiftLeft_eq, hpow, Nat.mul_mod_mul_right]
  have hround : x.toNat / 2 ^ (32 - n) < 2 ^ n := Nat.div_lt_of_lt_mul (hpow ▸ x.isLt)
  rw [rotl32, Nat.mod_eq_of_lt (by omega), BitVec.toNat_or, BitVec.toNat_shiftLeft, BitVec.toNat_ushiftRight, Nat.shiftLeft_eq,
    Nat.shiftRight_eq_div_pow, hup, Nat.shiftLeft_add_eq_or_of_lt hround]

theorem rotl32_zero (x : Word) : rotl32 x 0 = x := by
  rw [rotl32, Nat.zero_mod, BitVec.shiftLeft_zero, BitVec.ushiftRight_eq_zero (by decide), BitVec.or_zero]

theorem rotl32_mod (x : Word) (n : Nat) : rotl32 x (n % 32) = rotl32 x n := by
  rw [rotl32, Nat.mod_mod, ← rotl32]

/-- Settles O36: `rotl32_toNat`, and the two cases outside 1 to 31. -/
theorem rotateWraps : Obligations.RotateWraps := fun x n =>
  ⟨rotl32_toNat x, rotl32_zero x, (rotl32_mod x n).symm⟩

end Sys2Proof.Machine
end

section
/-! SUPPORT. The digest formatter (R190) and the command DIGEST (R191). -/

namespace Sys2Proof.Machine

open Sys2Proof.Claims

theorem bytesLe32_getD (v : Word) {j : Nat} (h : j < 4) : (bytesLe32 v).getD j 0 = v.extractLsb' (8 * j) 8 := by
  interval_cases j <;> rfl

/-- The digest is the four words of the hash state in order, each with its low byte first (R190). -/
theorem serialize_getD (k : HashState) {i j : Nat} (hi : i < 4) (hj : j < 4) :
    (serialize k).getD (4 * i + j) 0 = (([k.h0, k.h1, k.h2, k.h3] : List Word).getD i 0).extractLsb' (8 * j) 8 := by
  rw [← bytesLe32_getD _ hj]
  interval_cases i <;> interval_cases j <;> rfl

/-- Every byte of `DIG` after the formatter: the digest at offsets 0 to 15, nothing else written (R191). -/
theorem read_formatDigest (s : State) (a : Nat) :
    Memory.read (formatDigest s).dig a = if a < 16 then (serialize s.hash).getD a 0 else Memory.read s.dig a := by
  rw [formatDigest_dig, read_writeBytes, serialize_length, Nat.zero_add, Nat.sub_zero]
  simp only [Nat.zero_le, true_and]

/-- DIGEST changes `DIG` alone and completes (R191). -/
theorem digest_frame {s t : State} (h : t = finish (formatDigest s)) :
    Completed s t ∧ KeepsHash s t ∧ KeepsVal s t ∧ KeepsPlan s t ∧ KeepsTail s t := by
  subst h
  refine ⟨(Effect.digest (s := s)).completed, ?_⟩
  simp [KeepsHash, KeepsVal, KeepsPlan, KeepsTail]

/-- Settles O28: DIGEST is the formatter and the end of a command, and bits 5:4 of its word fall under the clause of R97 on a buffer that must be 0. -/
theorem digestResult : Obligations.DigestResult := by
  intro s
  obtain ⟨hcompleted, hhash, hval, hplan, htail⟩ := digest_frame (s := s) rfl
  refine ⟨_, exec_digest s, fun i hi j hj => ?_, fun a ha => ?_, hcompleted, hhash, hval, hplan, htail, decode_encode .digest,
    fun w hop hbuf => ?_⟩
  · rw [finish_dig, read_formatDigest, if_pos (by omega), serialize_getD s.hash hi hj]
  · rw [finish_dig, read_formatDigest, if_neg (by omega)]
  · exact (illegalExactlyR97 w).mpr (.inr (.inr (.inr (.inl ⟨.inr (.inr (.inl hop)), hbuf⟩))))

end Sys2Proof.Machine
end

section
/-! SUPPORT. The whole-message operation (R200): HASH of a message that can be read is the MD5 of R205, on the plan of PLAN. -/

namespace Sys2Proof.Machine

open Sys2Proof.Claims

section Padding

variable (L : Nat)

/-- A length is its full blocks and its leftover bytes (R141). -/
theorem length_eq_blocks_add : L = 64 * blockCount L + lengthMod64 L := (Nat.div_add_mod L 64).symm

/-- `z` of R205 is the plan's `zeros` (R143, R148). -/
theorem padZeros_eq_zeros : padZeros L = zeros L := by
  rw [padZeros, zeros_eq]
  split <;> omega

theorem one_le_chunkCount : 1 ≤ chunkCount L := by
  rw [chunkCount_eq]
  split <;> omega

/-- The tail blocks of a plan are one fewer than its descriptors (R146). -/
theorem tailBlocks_planInfoOf : (if (planInfoOf L).chunks = 3 then 1 + 1 else 1) = chunkCount L - 1 := by
  simp only [planInfoOf_chunks, chunkCount_eq]
  split <;> rfl

/-- What follows the leftover message bytes in the tail: the marker, the zeros, the trailer (R144). -/
def padding : List Byte := 0x80 :: (List.replicate (zeros L) 0x00 ++ bytesLe64 (bitLength L))

theorem padding_length : (padding L).length = 1 + zeros L + 8 := by
  simp [padding, Nat.add_comm, Nat.add_left_comm]

/-- The padding as R144 lays it out from the marker on. -/
theorem padding_getD (j : Nat) : (padding L).getD j 0 =
    if j = 0 then 0x80 else if 1 + zeros L ≤ j then (bytesLe64 (bitLength L)).getD (j - (1 + zeros L)) 0 else 0 := by
  cases j with
  | zero => rfl
  | succ j =>
    rw [padding, List.getD_cons_succ, if_neg (Nat.succ_ne_zero j)]
    by_cases hzero : j < zeros L
    · rw [if_neg (by omega), List.getD_append _ _ _ _ (by simpa using hzero), List.getD_replicate _ hzero]
    · rw [if_pos (by omega), List.getD_append_right _ _ _ _ (by simpa using hzero), List.length_replicate]
      congr 1
      omega

end Padding

theorem pad_eq_append (m : List Byte) : pad m = m ++ padding m.length := by
  simp [pad, padding, padZeros_eq_zeros]

/-- The tail blocks that PLAN lays out are the leftover bytes and the padding (R144, R205). -/
theorem memRead_tail_of_tailContents {t : State} {L : Nat} {left : List Byte} (hleft : left.length = lengthMod64 L)
    (htail : t.tail = tailContents L left) : memRead t .tail 0 (64 * (chunkCount L - 1)) = some (left ++ padding L) := by
  have hsplit := length_eq_blocks_add L
  have hpadded := paddedLength_eq L
  have hchunks := one_le_chunkCount L
  refine memRead_eq_some (by rw [List.length_append, padding_length]; omega) fun i hi => ?_
  rw [memByte, htail, Nat.zero_add, read_tailContents hleft]
  congr 1
  by_cases hi' : i < lengthMod64 L
  · rw [if_pos hi', List.getD_append _ _ _ _ (by omega)]
  · rw [if_neg hi', List.getD_append_right _ _ _ _ (by omega), padding_getD, hleft, trailerOffset]
    by_cases hmarker : i = lengthMod64 L
    · rw [if_pos hmarker, if_pos (by omega)]
    · have hbehind : i - lengthMod64 L ≠ 0 := by omega
      rw [if_neg hmarker, if_neg hbehind]
      by_cases htrailer : lengthMod64 L + zeros L + 1 ≤ i
      · rw [if_pos ⟨htrailer, by omega⟩, if_pos (by omega)]
        congr 1
        omega
      · rw [if_neg (fun h => htrailer h.1), if_neg (by omega)]

/-- The state PLAN leaves before it completes, for the leftover bytes `left` (R147). -/
def planned (s : State) (left : List Byte) : State :=
  { s with
    tail := tailContents s.len.toNat left
    nblk := BitVec.ofNat 64 (blockCount s.len.toNat)
    planinfo := planInfoOf s.len.toNat }

/-- The state HASH leaves before it completes, for the message bytes `m`. -/
def hashed (s : State) (m : List Byte) : State :=
  formatDigest { planned s (m.drop (64 * blockCount s.len.toNat)) with hash := md5State m }

section Fields

variable (s : State) (left m : List Byte)

@[simp] theorem planned_len : (planned s left).len = s.len := rfl
@[simp] theorem planned_val : (planned s left).val = s.val := rfl
@[simp] theorem planned_tail : (planned s left).tail = tailContents s.len.toNat left := rfl
@[simp] theorem planned_dig : (planned s left).dig = s.dig := rfl
@[simp] theorem planned_nblk : (planned s left).nblk = BitVec.ofNat 64 (blockCount s.len.toNat) := rfl
@[simp] theorem planned_planinfo : (planned s left).planinfo = planInfoOf s.len.toNat := rfl
@[simp] theorem planned_status : (planned s left).status = s.status := rfl
@[simp] theorem planned_errinfo : (planned s left).errinfo = s.errinfo := rfl

@[simp] theorem hashed_hash : (hashed s m).hash = md5State m := rfl
@[simp] theorem hashed_len : (hashed s m).len = s.len := rfl
@[simp] theorem hashed_off : (hashed s m).off = s.off := rfl
@[simp] theorem hashed_val : (hashed s m).val = s.val := rfl
@[simp] theorem hashed_tail : (hashed s m).tail = tailContents s.len.toNat (m.drop (64 * blockCount s.len.toNat)) := rfl
@[simp] theorem hashed_dig : (hashed s m).dig = Memory.writeBytes s.dig 0 (md5 m) := rfl
@[simp] theorem hashed_nblk : (hashed s m).nblk = BitVec.ofNat 64 (blockCount s.len.toNat) := rfl
@[simp] theorem hashed_planinfo : (hashed s m).planinfo = planInfoOf s.len.toNat := rfl
@[simp] theorem hashed_status : (hashed s m).status = s.status := rfl
@[simp] theorem hashed_errinfo : (hashed s m).errinfo = s.errinfo := rfl

end Fields

section Message

variable {s : State} {m : List Byte}

theorem memRead_planned (left : List Byte) (off n : Nat) : memRead (planned s left) .msg off n = memRead s .msg off n :=
  memRead_congr fun _ _ => memByte_msg_congr rfl rfl rfl _

/-- The body blocks of a message that can be read, and its leftover bytes (R141). -/
theorem memRead_body_and_left (h : memRead s .msg 0 s.len.toNat = some m) :
    memRead s .msg 0 (64 * blockCount s.len.toNat) = some (m.take (64 * blockCount s.len.toNat)) ∧
      memRead s .msg (s.len.toNat - lengthMod64 s.len.toNat) (lengthMod64 s.len.toNat) =
        some (m.drop (64 * blockCount s.len.toNat)) := by
  have hsplit := length_eq_blocks_add s.len.toNat
  have hoff : s.len.toNat - lengthMod64 s.len.toNat = 0 + 64 * blockCount s.len.toNat := by omega
  rw [hsplit] at h
  rw [hoff]
  exact memRead_split h

theorem runPlan_of_message (h : memRead s .msg 0 s.len.toNat = some m) :
    runPlan s = some (planned s (m.drop (64 * blockCount s.len.toNat))) :=
  runPlan_of_read (memRead_body_and_left h).2

/-- The blocks of the padded message are those of the body, then those of the tail (R146, R205). -/
theorem md5State_eq_body_tail (m : List Byte) : md5State m =
    (cutBlocks (chunkCount m.length - 1) (m.drop (64 * blockCount m.length) ++ padding m.length)).foldl compress
      ((cutBlocks (blockCount m.length) (m.take (64 * blockCount m.length))).foldl compress HashState.iv) := by
  have hle : 64 * blockCount m.length ≤ m.length := Nat.mul_div_le _ _
  have hbody : cutBlocks (blockCount m.length) (pad m) = cutBlocks (blockCount m.length) (m.take (64 * blockCount m.length)) := by
    rw [← cutBlocks_take _ le_rfl, pad_eq_append, List.take_append_of_le_length hle]
  rw [md5State, Nat.add_sub_assoc (one_le_chunkCount _), cutBlocks_add, List.foldl_append, hbody, pad_eq_append,
    List.drop_append_of_le_length hle]

/-- The block phases of HASH on the plan of a message leave its last hash state (R200, R205). -/
theorem compressPlan_planned (h : memRead s .msg 0 s.len.toNat = some m) :
    compressPlan (planned s (m.drop (64 * blockCount s.len.toNat))) = some (md5State m) := by
  obtain ⟨hlength, -⟩ := memRead_some h
  obtain ⟨hbody, hleft⟩ := memRead_body_and_left h
  obtain ⟨hleftLength, -⟩ := memRead_some hleft
  have htail := memRead_tail_of_tailContents (t := planned s _) hleftLength rfl
  have hnblk : (planned s (m.drop (64 * blockCount s.len.toNat))).nblk.toNat = blockCount s.len.toNat := toNat_blockCount s.len
  rw [compressPlan_eq, planned_planinfo, tailBlocks_planInfoOf, hnblk, compressBlocks_of_read _ ((memRead_planned _ _ _).trans hbody),
    Option.bind_some, compressBlocks_of_read _ htail, ← hlength, ← md5State_eq_body_tail]

/-- HASH of a message that can be read is MD5 (R205). -/
theorem runHash_of_message (h : memRead s .msg 0 s.len.toNat = some m) : runHash s = some (hashed s m) := by
  rw [runHash_eq, runPlan_of_message h, Option.bind_some, compressPlan_planned h]
  rfl

theorem exec_hash_of_some {u : State} (h : runHash s = some u) : exec .hash s = .next (finish u) := by
  rw [exec_hash, execHash, h]

end Message

/-- Every byte of `DIG` after HASH: the digest at offsets 0 to 15, nothing else written (R200). -/
theorem read_hashed_dig (s : State) (m : List Byte) (a : Nat) :
    Memory.read (hashed s m).dig a = if a < 16 then (md5 m).getD a 0 else Memory.read s.dig a :=
  read_formatDigest _ a

/-- Settles O29: the digest is the last hash state of `runHash_of_message`, formatted. -/
theorem hashIsMd5 : Obligations.HashIsMd5 := by
  intro s m hlength hbytes
  have hhash := runHash_of_message (hlength ▸ memRead_of_bytes hbytes)
  refine ⟨_, exec_hash_of_some hhash, fun i hi => ?_, rfl, fun a ha => ?_, (Effect.whole _ hhash).completed, rfl⟩
  · rw [finish_dig, read_hashed_dig, if_pos hi]
  · rw [finish_dig, read_hashed_dig, if_neg (by omega)]

/-- Settles O30: HASH goes on from the state PLAN leaves, and neither the blocks nor the digest write the plan. -/
theorem hashLeavesPlan : Obligations.HashLeavesPlan := by
  intro s hreadable
  obtain ⟨m, hread⟩ := memRead_of_readable hreadable
  exact ⟨_, _, exec_hash_of_some (runHash_of_message hread), execPlan_of_some (runPlan_of_message hread), rfl, rfl, rfl, rfl, rfl⟩

/-- Settles O53: with the same bytes below the same `LEN` the two messages read alike, and HASH is a function of what it reads. -/
theorem hashOwesNothing : Obligations.HashOwesNothing := by
  intro s s' hlen hstill hstill' hextent hextent' hsame
  have hread := memRead_msg_still (off := 0) (n := s.len.toNat) hstill (by omega)
  have hread' := memRead_msg_still (off := 0) (n := s'.len.toNat) hstill' (by omega)
  have hbytes : ((List.range s'.len.toNat).map fun i => Memory.read s'.msg.cells (0 + i)) =
      (List.range s.len.toNat).map fun i => Memory.read s.msg.cells (0 + i) := by
    rw [← hlen]
    refine List.map_congr_left fun i hi => ?_
    rw [Nat.zero_add, hsame i (List.mem_range.mp hi)]
  rw [hbytes] at hread'
  refine ⟨_, _, exec_hash_of_some (runHash_of_message hread), exec_hash_of_some (runHash_of_message hread'), rfl, ?_, ?_, ?_,
    fun a ha => ?_⟩
  · rw [finish_tail, finish_tail, hashed_tail, hashed_tail, hlen]
  · rw [finish_nblk, finish_nblk, hashed_nblk, hashed_nblk, hlen]
  · rw [finish_planinfo, finish_planinfo, hashed_planinfo, hashed_planinfo, hlen]
  · rw [finish_dig, finish_dig, read_hashed_dig, read_hashed_dig, if_pos ha, if_pos ha]

end Sys2Proof.Machine
end

section
/-! SUPPORT. The sequencer inside HASH (R40, R201): a block takes 64 moves, and all the moves together are the body of HASH. -/

namespace Sys2Proof.Machine

theorem seqRun_succ (n : Nat) (s : State) : seqRun (n + 1) s = (seqMove s).bind (seqRun n) := by
  rw [seqRun]
  cases seqMove s <;> rfl

theorem seqRun_one (s : State) : seqRun 1 s = seqMove s := by
  rw [seqRun_succ]
  cases seqMove s <;> rfl

/-- Moves in two runs, one behind the other, are made in one. -/
theorem seqRun_add (n m : Nat) (s : State) : seqRun (n + m) s = (seqRun n s).bind (seqRun m) := by
  induction n generalizing s with
  | zero => rw [Nat.zero_add]; rfl
  | succ n ih =>
    rw [Nat.add_right_comm, seqRun_succ, seqRun_succ, Option.bind_assoc]
    exact congrArg _ (funext ih)

theorem withInternal_nblk (x : Work) (w : Vector Word 16) (q : Seq) (s : State) : (withInternal x w q s).nblk = s.nblk := rfl

theorem withInternal_planinfo (x : Work) (w : Vector Word 16) (q : Seq) (s : State) :
    (withInternal x w q s).planinfo = s.planinfo := rfl

/-- The state `s` with the hash state `k` and the sequencer at `q`, whatever its moves have left in `A` to `D` and `W`. -/
def atSeq (x : Work) (w : Vector Word 16) (q : Seq) (k : HashState) (s : State) : State := withInternal x w q { s with hash := k }

section AtSeq

variable (x : Work) (w : Vector Word 16) (q : Seq) (k : HashState) (s : State)

@[simp] theorem atSeq_hash : (atSeq x w q k s).hash = k := rfl
@[simp] theorem atSeq_seq : (atSeq x w q k s).seq = q := rfl
@[simp] theorem atSeq_nblk : (atSeq x w q k s).nblk = s.nblk := rfl
@[simp] theorem atSeq_planinfo : (atSeq x w q k s).planinfo = s.planinfo := rfl

@[simp] theorem atSeq_atSeq (x' : Work) (w' : Vector Word 16) (q' : Seq) (k' : HashState) :
    atSeq x' w' q' k' (atSeq x w q k s) = atSeq x' w' q' k' s := rfl

@[simp] theorem compressBlocks_atSeq (S : Space) (off n : Nat) (h : HashState) :
    compressBlocks (atSeq x w q k s) S off n h = compressBlocks s S off n h :=
  compressBlocks_congr fun _ _ => memByte_congr rfl rfl rfl rfl rfl _ _

end AtSeq

section Block

/-- The sequencer within the block of words `w` that began in `s`, `r` rounds done (R40, R175). -/
def inRound (s : State) (w : Vector Word 16) (r : Nat) : State :=
  atSeq (afterRounds (round w) (loadWork s.hash) r) w { s.seq with rnd := r } s.hash s

variable {s : State} (S : Space) (off : Nat) (after : Seq) (w : Vector Word 16)

/-- Round 0 loads the block first (R162, R163). -/
theorem seqRound_first (h : s.seq.rnd = 0) :
    seqRound S off after s = (memRead s S off 64).map fun blk => inRound s (blockWords blk) 1 := by
  unfold seqRound
  rw [if_pos h]
  cases memRead s S off 64 with
  | none => rfl
  | some blk => simp only [h, Nat.zero_lt_succ, if_true]; rfl

/-- A round between the first and the last does one round of R173 on the working variables. -/
theorem seqRound_middle (x : Work) {r : Nat} (hpos : r ≠ 0) (hlast : r < 63) :
    seqRound S off after (atSeq x w { s.seq with rnd := r } s.hash s) =
      some (atSeq (round w x r) w { s.seq with rnd := r + 1 } s.hash s) := by
  unfold seqRound
  rw [if_neg (show (atSeq x w { s.seq with rnd := r } s.hash s).seq.rnd ≠ 0 from hpos)]
  exact if_pos hlast

/-- Round 63 ends the block with the add-back (R174). -/
theorem seqRound_last (x : Work) :
    seqRound S off after (atSeq x w { s.seq with rnd := 63 } s.hash s) =
      some (atSeq (round w x 63) w after (addBack s.hash (round w x 63)) s) := by
  unfold seqRound
  rw [if_neg (show (atSeq x w { s.seq with rnd := 63 } s.hash s).seq.rnd ≠ 0 by simp)]
  exact if_neg (lt_irrefl 63)

theorem rounds_eq_round (x : Work) : rounds w x = round w (afterRounds (round w) x 63) 63 :=
  (rounds_eq_afterRounds w x).trans (afterRounds_succ x (round w) 63)

/-- Between the first round of a block and the last a move does one round. -/
theorem seqRun_middle (hmove : ∀ r, seqMove (inRound s w r) = seqRound S off after (inRound s w r)) {n : Nat} (hn : n ≤ 62) :
    seqRun n (inRound s w 1) = some (inRound s w (n + 1)) := by
  induction n with
  | zero => rfl
  | succ n ih =>
    rw [seqRun_add, ih (by omega), Option.bind_some, seqRun_one, hmove, inRound,
      seqRound_middle S off after w _ (by omega) (by omega), ← afterRounds_succ _ (round w), inRound]

/-- In a phase that moves by the rounds of one block, 64 moves compress it (R161, R175). -/
theorem seqRun_block (hrnd : s.seq.rnd = 0)
    (hmove : ∀ x w r, seqMove (atSeq x w { s.seq with rnd := r } s.hash s) =
      seqRound S off after (atSeq x w { s.seq with rnd := r } s.hash s)) :
    ∃ x w, seqRun 64 s = (compressBlocks s S off 1 s.hash).map fun k => atSeq x w after k s := by
  have hself : atSeq s.work s.words { s.seq with rnd := 0 } s.hash s = s := by rw [← hrnd]; rfl
  have hfirst := hmove s.work s.words 0
  rw [hself] at hfirst
  rw [show 64 = 1 + (62 + 1) from rfl, seqRun_add, seqRun_one, hfirst, seqRound_first S off after hrnd, compressBlocks_succ]
  cases memRead s S off 64 with
  | none => exact ⟨s.work, s.words, rfl⟩
  | some blk =>
    refine ⟨rounds (blockWords blk) (loadWork s.hash), blockWords blk, ?_⟩
    rw [Option.map_some, Option.bind_some, seqRun_add, seqRun_middle S off after _ (fun _ => hmove _ _ _) le_rfl, Option.bind_some,
      seqRun_one, inRound, hmove, seqRound_last, ← rounds_eq_round, Option.bind_some, compressBlocks, Option.map_some, compress]

end Block

/-- The body phase from block `b` on: the `n + 1` blocks that are left, then the tail (R201). -/
theorem seqRun_body {n : Nat} : ∀ {b : Nat} {s : State}, s.seq = ⟨.body, b, 0⟩ → b + (n + 1) = s.nblk.toNat →
    ∃ x w, seqRun (64 * (n + 1)) s =
      (compressBlocks s .msg (64 * b) (n + 1) s.hash).map fun k => atSeq x w ⟨.tail1, 0, 0⟩ k s := by
  induction n with
  | zero =>
    intro b s hseq hcount
    refine seqRun_block .msg (64 * b) ⟨.tail1, 0, 0⟩ (by rw [hseq]) fun x w r => ?_
    simp [seqMove, hseq, ← hcount]
  | succ n ih =>
    intro b s hseq hcount
    obtain ⟨x, w, hblock⟩ := seqRun_block (s := s) .msg (64 * b) ⟨.body, b + 1, 0⟩ (by rw [hseq]) fun x w r => by
      simp [seqMove, hseq, ← hcount]
    rw [show 64 * (n + 1 + 1) = 64 + 64 * (n + 1) by omega, seqRun_add, hblock, Nat.add_comm (n + 1) 1, compressBlocks_add]
    cases compressBlocks s .msg (64 * b) 1 s.hash with
    | none => exact ⟨x, w, rfl⟩
    | some k =>
      have hrest : b + 1 + (n + 1) = (atSeq x w ⟨.body, b + 1, 0⟩ k s).nblk.toNat := by rw [atSeq_nblk]; omega
      obtain ⟨x', w', h⟩ := ih rfl hrest
      exact ⟨x', w', by simpa [Nat.mul_add] using h⟩

/-- INIT and BODY: `H` is the compression of the body blocks from `IV`, of none when `NBLK = 0` (R201). -/
theorem seqRun_init_body {s : State} (hseq : s.seq = ⟨.init, 0, 0⟩) :
    ∃ x w, seqRun (1 + 64 * s.nblk.toNat) s =
      (compressBlocks s .msg 0 s.nblk.toNat HashState.iv).map fun k => atSeq x w ⟨.tail1, 0, 0⟩ k s := by
  have hinit : seqMove s =
      some (atSeq s.work s.words (if s.nblk = 0 then ⟨.tail1, 0, 0⟩ else ⟨.body, 0, 0⟩) HashState.iv s) := by
    simp only [seqMove, hseq]
    rfl
  rw [seqRun_add, seqRun_one, hinit, Option.bind_some]
  cases hn : s.nblk.toNat with
  | zero =>
    rw [if_pos (BitVec.eq_of_toNat_eq hn)]
    exact ⟨s.work, s.words, rfl⟩
  | succ n =>
    have hne : s.nblk ≠ 0 := fun h => by simp [h] at hn
    rw [if_neg hne]
    obtain ⟨x, w, h⟩ := seqRun_body (s := atSeq s.work s.words ⟨.body, 0, 0⟩ HashState.iv s) rfl ((Nat.zero_add _).trans hn.symm)
    exact ⟨x, w, by simpa using h⟩

/-- TAIL1, and TAIL2 when the plan has three descriptors: the tail blocks (R146, R201). -/
theorem seqRun_tail {s : State} (hseq : s.seq = ⟨.tail1, 0, 0⟩) :
    ∃ x w, seqRun (64 * (if s.planinfo.chunks = 3 then 1 + 1 else 1)) s =
      (compressBlocks s .tail 0 (if s.planinfo.chunks = 3 then 1 + 1 else 1) s.hash).map fun k => atSeq x w ⟨.format, 0, 0⟩ k s := by
  obtain ⟨x, w, hfirst⟩ := seqRun_block (s := s) .tail 0 (if s.planinfo.chunks = 3 then ⟨.tail2, 0, 0⟩ else ⟨.format, 0, 0⟩)
    (by rw [hseq]) fun x w r => by simp [seqMove, hseq]
  by_cases hchunks : s.planinfo.chunks = 3
  · simp only [if_pos hchunks] at hfirst ⊢
    rw [Nat.mul_add, seqRun_add, hfirst, compressBlocks_add]
    cases compressBlocks s .tail 0 1 s.hash with
    | none => exact ⟨x, w, rfl⟩
    | some k =>
      obtain ⟨x', w', h⟩ := seqRun_block (s := atSeq x w ⟨.tail2, 0, 0⟩ k s) .tail 64 ⟨.format, 0, 0⟩ rfl
        fun x w r => by simp [seqMove]
      exact ⟨x', w', by simpa using h⟩
  · simp only [if_neg hchunks] at hfirst ⊢
    exact ⟨x, w, hfirst⟩

/-- The blocks of a plan, move by move (R146, R201). -/
theorem seqRun_compressPlan {s : State} (hseq : s.seq = ⟨.init, 0, 0⟩) :
    ∃ x w, seqRun (1 + 64 * s.nblk.toNat + 64 * (if s.planinfo.chunks = 3 then 1 + 1 else 1)) s =
      (compressPlan s).map fun k => atSeq x w ⟨.format, 0, 0⟩ k s := by
  obtain ⟨x, w, hbody⟩ := seqRun_init_body hseq
  rw [seqRun_add, hbody, compressPlan_eq]
  cases compressBlocks s .msg 0 s.nblk.toNat HashState.iv with
  | none => exact ⟨x, w, rfl⟩
  | some k =>
    obtain ⟨x', w', h⟩ := seqRun_tail (s := atSeq x w ⟨.tail1, 0, 0⟩ k s) rfl
    rw [atSeq_hash, compressBlocks_atSeq] at h
    exact ⟨x', w', h⟩

/-- The moves of a plan's blocks, counted from the length (R141, R143). -/
theorem plan_moves {s t : State} (h : runPlan s = some t) :
    1 + 64 * t.nblk.toNat + 64 * (if t.planinfo.chunks = 3 then 1 + 1 else 1) =
      1 + 64 * (blockCount s.len.toNat + chunkCount s.len.toNat - 1) := by
  obtain ⟨left, -, rfl⟩ := runPlan_some h
  have hchunks := one_le_chunkCount s.len.toNat
  rw [toNat_blockCount, tailBlocks_planInfoOf]
  omega

/-- The sequencer from PLAN to IDLE is the body of HASH, but for what it leaves in `A` to `D` and `W` (R200, R201). -/
theorem seqRun_eq_runHash (s : State) :
    ∃ x w, seqRun (3 + 64 * (blockCount s.len.toNat + chunkCount s.len.toNat - 1)) (seqStart s) =
      (runHash s).map (withInternal x w ⟨.idle, 0, 0⟩) := by
  have hstart : seqMove (seqStart s) = (runPlan s).map (withInternal s.work s.words ⟨.init, 0, 0⟩) := by
    have hplan : runPlan (seqStart s) = (runPlan s).map (withInternal s.work s.words ⟨.plan, 0, 0⟩) := runPlan_withInternal _ _ _ s
    rw [seqMove, seqStart, ← seqStart, hplan, Option.map_map]
    cases h : runPlan s with
    | none => rfl
    | some t =>
      obtain ⟨left, -, rfl⟩ := runPlan_some h
      rfl
  rw [show 3 + 64 * (blockCount s.len.toNat + chunkCount s.len.toNat - 1) =
    1 + (1 + 64 * (blockCount s.len.toNat + chunkCount s.len.toNat - 1) + 1) by omega, seqRun_add, seqRun_one, hstart, runHash_eq]
  cases h : runPlan s with
  | none => exact ⟨s.work, s.words, rfl⟩
  | some t =>
    obtain ⟨x, w, hblocks⟩ := seqRun_compressPlan (s := withInternal s.work s.words ⟨.init, 0, 0⟩ t) rfl
    refine ⟨x, w, ?_⟩
    rw [compressPlan_withInternal, withInternal_nblk, withInternal_planinfo] at hblocks
    rw [Option.map_some, Option.bind_some, ← plan_moves h, seqRun_add, hblocks, Option.bind_some]
    cases compressPlan t <;> rfl

/-- Settles O32: both clauses are `seqRun_eq_runHash`, for a body of HASH that meets the read port's error and for one that does not. -/
theorem sequencerRefinesHash : Obligations.SequencerRefinesHash := by
  intro s
  obtain ⟨x, w, h⟩ := seqRun_eq_runHash s
  refine ⟨fun hnone => by rw [h, hnone, Option.map_none], fun u hu => ?_⟩
  exact ⟨withInternal x w ⟨.idle, 0, 0⟩ u, by rw [h, hu, Option.map_some], rfl, rfl, rfl, rfl, rfl, rfl, rfl⟩

end Sys2Proof.Machine
end

section
/-! SUPPORT. The host script of R202: what each of its lines does, and that together they do what HASH does. -/

namespace Sys2Proof.Machine

open Sys2Proof.Claims

theorem andThen_next (s : State) (f : State → Result) : andThen (.next s) f = f s := rfl

theorem andThen_assoc (r : Result) (f g : State → Result) : andThen (andThen r f) g = andThen r fun s => andThen (f s) g := by
  cases r <;> rfl

/-- A command that the host issues to an engine neither busy nor stopped is accepted and executed (R102, R106). -/
theorem issue_of_ready {s : State} (hidle : s.status.busy = false) (herr : s.status.err = 0) (i : Instr) :
    issue i s = exec i (accept (encode i) s) := by
  rw [issue, writeCmd, if_neg (by simp [hidle]), if_pos herr]

/-- Between two commands of a script on a message that holds still: the last one has completed (R105). -/
structure BetweenCommands (s : State) : Prop where
  status : s.status = ⟨false, true, s.status.ovr, 0⟩
  still : s.msgOld = []

/-- From `s` to `t` only INIT and BLOCK have been executed: of what the host can see, only `H` and `OFF` have changed. -/
structure HashOnly (s t : State) : Prop where
  visible : SameVisible { s with hash := t.hash, off := t.off } t
  msg : t.msg = s.msg
  between : BetweenCommands t

section Lines

variable {s t : State}

theorem BetweenCommands.idle (h : BetweenCommands s) : s.status.busy = false := by rw [h.status]

theorem BetweenCommands.err (h : BetweenCommands s) : s.status.err = 0 := by rw [h.status]

theorem HashOnly.refl (h : BetweenCommands s) : HashOnly s s := ⟨by constructor <;> rfl, rfl, h⟩

theorem HashOnly.trans {u : State} (h : HashOnly s t) (h' : HashOnly t u) : HashOnly s u := by
  obtain ⟨⟨-, hlen, -, hval, htail, hdig, hnblk, hplan, hstatus, herrinfo⟩, hmsg, -⟩ := h
  obtain ⟨⟨-, hlen', -, hval', htail', hdig', hnblk', hplan', hstatus', herrinfo'⟩, hmsg', hbetween⟩ := h'
  exact ⟨⟨rfl, hlen'.trans hlen, rfl, hval'.trans hval, htail'.trans htail, hdig'.trans hdig, hnblk'.trans hnblk,
    hplan'.trans hplan, hstatus'.trans hstatus, herrinfo'.trans herrinfo⟩, hmsg'.trans hmsg, hbetween⟩

/-- A message that holds still and the tail read the same in two states that hold the same, whatever the count of draws. -/
theorem compressBlocks_of_still (hs : s.msgOld = []) (ht : t.msgOld = []) (hmsg : t.msg = s.msg) (htail : t.tail = s.tail)
    (hdig : t.dig = s.dig) (S : Space) (off n : Nat) (k : HashState) : compressBlocks t S off n k = compressBlocks s S off n k := by
  refine compressBlocks_congr fun i _ => ?_
  cases S with
  | msg => simp [memByte, hs, ht, hmsg]
  | tail => rw [memByte, memByte, htail]
  | dig => rw [memByte, memByte, hdig]

theorem HashOnly.compressBlocks_eq (h : HashOnly s t) (hs : BetweenCommands s) (S : Space) (off n : Nat) (k : HashState) :
    compressBlocks t S off n k = compressBlocks s S off n k :=
  compressBlocks_of_still hs.still h.between.still h.msg h.visible.tail h.visible.dig S off n k

/-- A command that writes `H` alone and completes leaves the engine between two commands (R105). -/
theorem hashOnly_finish (hs : BetweenCommands s) (w : Word) (o : DWord) (k : HashState) :
    HashOnly s (finish { accept w { s with off := o } with hash := k }) := by
  have hstatus : (⟨false, true, s.status.ovr, s.status.err⟩ : Status) = s.status := by rw [hs.status]
  refine ⟨⟨rfl, rfl, rfl, rfl, rfl, rfl, rfl, rfl, hstatus, rfl⟩, rfl, ?_, rfl⟩
  rw [finish_status, accept_status, hs.err]

/-- The line `INIT` (R107). -/
theorem issue_init (hs : BetweenCommands s) : ∃ t, issue .init s = .next t ∧ HashOnly s t ∧ t.hash = HashState.iv :=
  ⟨_, (issue_of_ready hs.idle hs.err .init).trans (exec_init _), hashOnly_finish hs _ s.off _, rfl⟩

/-- The line `BLOCK <buf>, <off>` (R107): the block at `off` is compressed into `H`. -/
theorem issueBlock_of_compressBlocks (hs : BetweenCommands s) {S : Space} (hS : S ≠ .dig) {off : Nat} (hoff : off < 2 ^ 64)
    (hin : off + 64 ≤ spaceSize s S) {k : HashState} (hk : compressBlocks s S off 1 s.hash = some k) :
    ∃ t, issueBlock (block S) off s = .next t ∧ HashOnly s t ∧ t.hash = k := by
  rw [compressBlocks_succ, Option.bind_eq_some_iff] at hk
  obtain ⟨blk, hread, hblk⟩ := hk
  cases hblk
  have hwrite : hostWrite 0x04 (BitVec.ofNat 64 off) s = { s with off := BitVec.ofNat 64 off } := if_neg (by simp [hs.idle])
  have hnat : (BitVec.ofNat 64 off).toNat = off := by rw [BitVec.toNat_ofNat, Nat.mod_eq_of_lt hoff]
  have hissue : issueBlock (block S) off s =
      blockCommand S (accept (encode (block S)) { s with off := BitVec.ofNat 64 off }) := by
    rw [issueBlock, hwrite, issue_of_ready (s := { s with off := BitVec.ofNat 64 off }) hs.idle hs.err, exec_block hS]
  refine ⟨_, hissue.trans (blockCommand_of_read ?_ ?_), hashOnly_finish hs _ _ _, rfl⟩
  · rw [accept_off, hnat]
    cases S <;> exact hin
  · rw [accept_off, hnat, ← hread]
    exact memRead_congr fun _ _ => memByte_congr rfl rfl rfl rfl rfl _ _

/-- The lines `BLOCK MSG, off` to the last body block (R107). -/
theorem issueBody_of_compressBlocks {n : Nat} : ∀ {s : State} {off : Nat} {k : HashState}, BetweenCommands s →
    off + 64 * n ≤ s.len.toNat → compressBlocks s .msg off n s.hash = some k →
    ∃ t, issueBody off n s = .next t ∧ HashOnly s t ∧ t.hash = k := by
  induction n with
  | zero =>
    intro s off k hs _ hk
    cases hk
    exact ⟨s, rfl, .refl hs, rfl⟩
  | succ n ih =>
    intro s off k hs hin hk
    rw [Nat.add_comm n 1, compressBlocks_add, Option.bind_eq_some_iff] at hk
    obtain ⟨k', hfirst, hrest⟩ := hk
    have hlen := s.len.isLt
    obtain ⟨t, hissue, ht, rfl⟩ := issueBlock_of_compressBlocks hs (S := .msg) nofun (by omega)
      (show off + 64 ≤ s.len.toNat by omega) hfirst
    obtain ⟨u, hbody, hu, hhash⟩ := ih (s := t) (off := off + 64) (k := k) ht.between
      (by rw [ht.visible.len]; show off + 64 + 64 * n ≤ s.len.toNat; omega) ((ht.compressBlocks_eq hs _ _ _ _).trans hrest)
    refine ⟨u, ?_, ht.trans hu, hhash⟩
    rw [issueBody, show Instr.blockMsg = block .msg from rfl, hissue, andThen_next, hbody]

/-- The lines on the tail of a plan: one block, and the second one when there are three descriptors (R107, R202). -/
theorem issueTail_of_compressBlocks {k : HashState} (hs : BetweenCommands s)
    (hk : compressBlocks s .tail 0 (if s.planinfo.chunks = 3 then 1 + 1 else 1) s.hash = some k) :
    ∃ t, andThen (issueBlock .blockTail 0 s)
        (fun s => if s.planinfo.chunks = 3 then issueBlock .blockTail 64 s else .next s) = .next t ∧
      HashOnly s t ∧ t.hash = k := by
  have hline : ∀ {s : State} {off : Nat} {k : HashState}, BetweenCommands s → off + 64 ≤ 128 →
      compressBlocks s .tail off 1 s.hash = some k →
      ∃ t, issueBlock .blockTail off s = .next t ∧ HashOnly s t ∧ t.hash = k := fun hs hin hk =>
    issueBlock_of_compressBlocks hs (S := .tail) nofun (by omega) hin hk
  by_cases hchunks : s.planinfo.chunks = 3
  · rw [if_pos hchunks, compressBlocks_add, Option.bind_eq_some_iff] at hk
    obtain ⟨k', hfirst, hsecond⟩ := hk
    obtain ⟨t, hissue, ht, rfl⟩ := hline hs (by omega) hfirst
    obtain ⟨u, hissue', hu, hhash⟩ := hline ht.between (by omega) ((ht.compressBlocks_eq hs _ _ _ _).trans hsecond)
    refine ⟨u, ?_, ht.trans hu, hhash⟩
    rw [hissue, andThen_next, if_pos (by rw [ht.visible.planinfo]; exact hchunks), hissue']
  · rw [if_neg hchunks] at hk
    obtain ⟨t, hissue, ht, hhash⟩ := hline hs (by omega) hk
    refine ⟨t, ?_, ht, hhash⟩
    rw [hissue, andThen_next, if_neg (by rw [ht.visible.planinfo]; exact hchunks)]

/-- The lines of R202 between PLAN and DIGEST. -/
def blockLines (s : State) : Result :=
  andThen (issue .init s) fun s =>
  andThen (issueBody 0 s.nblk.toNat s) fun s =>
  andThen (issueBlock .blockTail 0 s) fun s =>
  if s.planinfo.chunks = 3 then issueBlock .blockTail 64 s else .next s

theorem componentRun_eq (s : State) :
    componentRun s = andThen (issue .plan s) fun s => andThen (blockLines s) (issue .digest) := by
  simp only [componentRun, blockLines, andThen_assoc]

/-- The lines between PLAN and DIGEST are the block phases of HASH (R146, R202). -/
theorem blockLines_of_compressPlan {k : HashState} (hs : BetweenCommands s) (hin : 64 * s.nblk.toNat ≤ s.len.toNat)
    (hk : compressPlan s = some k) : ∃ t, blockLines s = .next t ∧ HashOnly s t ∧ t.hash = k := by
  rw [compressPlan_eq, Option.bind_eq_some_iff] at hk
  obtain ⟨k', hbody, htail⟩ := hk
  obtain ⟨t, hinit, ht, hiv⟩ := issue_init hs
  have hnblk : t.nblk = s.nblk := ht.visible.nblk
  have hlen : t.len = s.len := ht.visible.len
  obtain ⟨u, hlines, hu, rfl⟩ := issueBody_of_compressBlocks ht.between (off := 0) (n := t.nblk.toNat) (k := k')
    (by rw [hnblk, hlen]; omega) (by rw [ht.compressBlocks_eq hs, hnblk, hiv, hbody])
  have hsu := ht.trans hu
  have hplan : u.planinfo = s.planinfo := hsu.visible.planinfo
  obtain ⟨v, htails, hv, hhash⟩ := issueTail_of_compressBlocks hu.between (k := k) (by rw [hsu.compressBlocks_eq hs, hplan, htail])
  refine ⟨v, ?_, hsu.trans hv, hhash⟩
  rw [blockLines, hinit, andThen_next, hlines, andThen_next, htails]

end Lines

/-- The end of PLAN leaves the message and the tail as they are, so also what the blocks of the plan give. -/
theorem compressPlan_finish {s : State} (h : s.msgOld = []) : compressPlan (finish s) = compressPlan s := by
  have hblocks := compressBlocks_of_still (s := s) (t := finish s) h rfl rfl rfl rfl
  rw [compressPlan_eq, compressPlan_eq, hblocks, finish_nblk]
  exact congrArg _ (funext fun k => hblocks .tail 0 _ k)

/-- The script of R202 from the plan that its first line makes and the hash state that the blocks of the plan give. -/
theorem componentRun_of_compressPlan {s p : State} {k : HashState} (hidle : s.status.busy = false) (herr : s.status.err = 0)
    (hstill : s.msgOld = []) (hp : runPlan (accept (encode .plan) s) = some p) (hk : compressPlan p = some k) :
    ∃ t, componentRun s = .next (finish (formatDigest (accept (encode .digest) t))) ∧ HashOnly (finish p) t ∧ t.hash = k := by
  have hplan := (issue_of_ready hidle herr .plan).trans (execPlan_of_some hp)
  obtain ⟨hlen, -, -, hold, -, -, hstatus, -⟩ := (Effect.plan p hp).keeps
  have hbetween : BetweenCommands (finish p) := ⟨by simp [hstatus, herr], rfl⟩
  have hnblk : p.nblk.toNat = blockCount s.len.toNat := by
    obtain ⟨left, -, rfl⟩ := runPlan_some hp
    exact toNat_blockCount s.len
  have hin : 64 * (finish p).nblk.toNat ≤ (finish p).len.toNat := by
    rw [finish_nblk, finish_len, hnblk, hlen]
    exact Nat.mul_div_le _ _
  obtain ⟨t, hlines, ht, hlast⟩ := blockLines_of_compressPlan hbetween hin ((compressPlan_finish (hold.trans hstill)).trans hk)
  have hdigest := (issue_of_ready ht.between.idle ht.between.err .digest).trans (exec_digest _)
  refine ⟨t, ?_, ht, hlast⟩
  rw [componentRun_eq, hplan, andThen_next, hlines, andThen_next, hdigest]

theorem memRead_accept (w : Word) (s : State) (S : Space) (off n : Nat) : memRead (accept w s) S off n = memRead s S off n :=
  memRead_congr fun _ _ => memByte_congr rfl rfl rfl rfl rfl _ _

/-- Settles O31: PLAN leaves the plan that HASH makes, the lines between leave its last hash state, and DIGEST formats it. -/
theorem hashIsComponentScript : Obligations.HashIsComponentScript := by
  intro s hidle herr hstill hextent
  obtain ⟨m, hread⟩ : ∃ m, memRead s .msg 0 s.len.toNat = some m := ⟨_, memRead_msg_still hstill (by omega)⟩
  have hmessage : ∀ w, memRead (accept w s) .msg 0 (accept w s).len.toNat = some m := fun w => (memRead_accept w s _ _ _).trans hread
  have hhash := (issue_of_ready hidle herr .hash).trans (exec_hash_of_some (runHash_of_message (hmessage _)))
  obtain ⟨t, hscript, ht, hlast⟩ := componentRun_of_compressPlan hidle herr hstill (runPlan_of_message (hmessage _))
    (compressPlan_planned (hmessage _))
  obtain ⟨-, hlen, -, hval, htail, hdig, hnblk, hplan, hstatus, herrinfo⟩ := ht.visible
  refine ⟨_, _, hscript, hhash, ?_⟩
  simp [md5, hlast, hlen, hval, htail, hdig, hnblk, hplan, hstatus, herrinfo]

end Sys2Proof.Machine
end

section
/-! SUPPORT. The faults (R220 to R227): when each of them is taken, what fault entry leaves alone, when a command completes, and what stays of a stopped engine. -/

namespace Sys2Proof.Machine

open Sys2Proof.Claims

/-- Fault entry changes `STATUS` and `ERRINFO` alone (R226). -/
theorem raiseFault_frame (code : BitVec 4) (s : State) :
    FaultEntered code s (raiseFault code s) ∧ KeepsHash s (raiseFault code s) ∧ KeepsVal s (raiseFault code s) ∧
      KeepsPlan s (raiseFault code s) ∧ KeepsTail s (raiseFault code s) ∧ KeepsDig s (raiseFault code s) ∧
      KeepsInternal s (raiseFault code s) := by
  simp [FaultEntered, KeepsHash, KeepsVal, KeepsPlan, KeepsTail, KeepsDig, KeepsInternal]

/-- MSG_FAULT enters as every fault does, whatever the write set (R224, R226). -/
theorem raiseMsgFault_entered (ws : WriteSet) (s : State) : FaultEntered errMsgFault s (raiseMsgFault ws s) := by
  simp [FaultEntered]

section IllegalWord

variable {s : State}

/-- With no host act to come, or with the host waiting, the step is the engine's (R105; log 1). -/
theorem step_eq_engineStep {acts : List HostAction} (h : s.inbox = [] ∧ acts = [] ∨ s.inbox = .wait :: acts) :
    step s = engineStep { s with inbox := acts } := by
  rcases h with ⟨hnil, rfl⟩ | hwait
  · rw [step_of_inbox_nil hnil, ← hnil]
  · exact step_of_inbox_wait hwait

theorem engineStep_of_illegal {e : IllegalWord} (hbusy : s.status.busy = true) (hd : decode s.pend = .error e) :
    engineStep s = .next (raiseFault errIllegalCmd s) := by
  rw [engineStep, if_pos hbusy, hd]

end IllegalWord

/-- Settles O8: the step is the engine's, and it enters ILLEGAL_CMD on the state from which the `wait` is taken off. -/
theorem illegalWordFaults : Obligations.IllegalWordFaults := by
  rintro s acts hturn hbusy ⟨e, hd⟩
  exact ⟨_, (step_eq_engineStep hturn).trans (engineStep_of_illegal (s := { s with inbox := acts }) hbusy hd),
    raiseFault_frame errIllegalCmd { s with inbox := acts }⟩

/-- Every bounds-checked command begins with its bounds check, and takes BOUNDS where that fails (R223). -/
theorem exec_of_not_inBounds {i : Instr} {S : Space} {n : Nat} {s : State} (ha : access i = some (S, n)) (h : ¬ inBounds s S n) :
    exec i s = .next (raiseFault errBounds s) := by
  cases i with
  | init | plan | digest | hash => cases ha
  | get32leMsg | get32leTail | get32leDig | get32beMsg | get32beTail | get32beDig | put32leTail | put32leDig | put64leTail | put64leDig
  | put64beTail | put64beDig | blockMsg | blockTail =>
    cases ha
    exact if_neg h

/-- Settles O39: the sum of R223 is over the natural numbers, as the bounds check has it. -/
theorem boundsFault : Obligations.BoundsFault := by
  intro s i S n ha hout
  have hcheck : ¬ inBounds s S n := by
    rw [inBounds, decide_eq_true_eq]
    omega
  exact ⟨_, exec_of_not_inBounds ha hcheck, raiseFault_frame errBounds s⟩

section Accesses

variable {s : State} {S : Space}

/-- Bytes of a message that holds still, the last of them at or beyond its extent, cannot be read (R69). -/
theorem memRead_msg_of_short {off n : Nat} (hstill : s.msgOld = []) (hpos : 0 < n) (hshort : s.msg.extent < off + n) :
    memRead s .msg off n = none := by
  have hbeyond : ¬ off + (n - 1) < s.msg.extent := by omega
  exact memRead_none_iff.mpr ⟨n - 1, by omega, by simp [memByte, hstill, Message.byteAt, hbeyond]⟩

/-- An access in bounds reads bytes that are there, when the message holds still and is as long as declared (R220). -/
theorem readable_of_inBounds {off n : Nat} (hstill : s.msgOld = []) (hextent : s.len.toNat ≤ s.msg.extent)
    (hin : off + n ≤ spaceSize s S) : Readable s S off n := by
  rintro rfl
  refine .inr fun v hv => ?_
  obtain rfl : v = s.msg := by simpa [hstill] using hv
  exact le_trans hin hextent

/-- A get in bounds completes when its four bytes can be read (R120). -/
theorem getCommand_completes {get : State → Space → Nat → Option Word}
    (hget : get s S s.off.toNat = none ↔ memRead s S s.off.toNat 4 = none)
    (hin : s.off.toNat + 4 ≤ spaceSize s S) (hreadable : Readable s S s.off.toNat 4) :
    ∃ u, Effect s u ∧ getCommand get S s = .next (finish u) := by
  obtain ⟨bs, hread⟩ := memRead_of_readable hreadable
  obtain ⟨w, hw⟩ : ∃ w, get s S s.off.toNat = some w := by
    rw [← Option.ne_none_iff_exists', ne_eq, hget, hread]
    exact Option.some_ne_none bs
  exact ⟨_, .val _, getCommand_of_some hin hw⟩

/-- A get in bounds ends in MSG_FAULT when one of its four bytes cannot be read (R120, R224). -/
theorem getCommand_of_unreadable {get : State → Space → Nat → Option Word}
    (hget : get s S s.off.toNat = none ↔ memRead s S s.off.toNat 4 = none)
    (hin : s.off.toNat + 4 ≤ spaceSize s S) (hread : memRead s S s.off.toNat 4 = none) :
    getCommand get S s = .next (raiseMsgFault .val s) := by
  rcases getCommand_cases get S s with ⟨-, w, hw, -⟩ | ⟨-, -, he⟩ | ⟨hout, -⟩
  · cases hw.symm.trans (hget.mpr hread)
  · exact he
  · omega

/-- A put in bounds completes (R120). -/
theorem putCommand_completes {n : Nat} {B : Buffer} {put : State → Buffer → Nat → State} (bs : List Byte)
    (hput : put s B s.off.toNat = memWrite s B s.off.toNat bs) (hlength : bs.length = n) (hin : s.off.toNat + n ≤ spaceSize s (bufferSpace B)) :
    ∃ u, Effect s u ∧ putCommand n B put s = .next (finish u) := by
  rcases putCommand_cases n B put s with ⟨-, he⟩ | ⟨hout, -⟩
  · exact ⟨_, .stored B s.off.toNat bs (hlength ▸ hin), hput ▸ he⟩
  · omega

/-- A BLOCK in bounds completes when its 64 bytes can be read (R178). -/
theorem blockCommand_completes (hin : s.off.toNat + 64 ≤ spaceSize s S) (hreadable : Readable s S s.off.toNat 64) :
    ∃ u, Effect s u ∧ blockCommand S s = .next (finish u) := by
  obtain ⟨blk, hread⟩ := memRead_of_readable hreadable
  exact ⟨_, .hash _, blockCommand_of_read hin hread⟩

/-- A BLOCK in bounds ends in MSG_FAULT when one of its 64 bytes cannot be read (R178, R224). -/
theorem blockCommand_of_unreadable (hin : s.off.toNat + 64 ≤ spaceSize s S) (hread : memRead s S s.off.toNat 64 = none) :
    blockCommand S s = .next (raiseMsgFault .hash s) := by
  rcases blockCommand_cases S s with ⟨-, blk, hblk, -⟩ | ⟨-, -, he⟩ | ⟨hout, -⟩
  · cases hblk.symm.trans hread
  · exact he
  · omega

theorem exec_plan_of_none (h : runPlan s = none) : exec .plan s = .next (raiseMsgFault .plan s) := by
  rw [exec_plan, execPlan, h]

theorem exec_hash_of_none (h : runHash s = none) : exec .hash s = .next (raiseMsgFault .whole s) := by
  rw [exec_hash, execHash, h]

/-- A message that cannot be read has a byte that cannot be read in its body blocks or among its leftover bytes (R141). -/
theorem memRead_body_or_left_none (h : memRead s .msg 0 s.len.toNat = none) :
    memRead s .msg 0 (64 * blockCount s.len.toNat) = none ∨
      memRead s .msg (s.len.toNat - lengthMod64 s.len.toNat) (lengthMod64 s.len.toNat) = none := by
  have hsplit := length_eq_blocks_add s.len.toNat
  obtain ⟨i, hi, hbyte⟩ := memRead_none_iff.mp h
  by_cases hbody : i < 64 * blockCount s.len.toNat
  · exact .inl (memRead_none_iff.mpr ⟨i, hbody, hbyte⟩)
  · refine .inr (memRead_none_iff.mpr ⟨i - 64 * blockCount s.len.toNat, by omega, ?_⟩)
    convert hbyte using 2
    omega

/-- HASH meets an error of the read port when some byte of the message cannot be read: in its plan, or in its body blocks (R200, R224). -/
theorem runHash_of_unreadable (h : memRead s .msg 0 s.len.toNat = none) : runHash s = none := by
  rw [runHash_eq]
  rcases memRead_body_or_left_none h with hbody | hleft
  · cases hplan : runPlan s with
    | none => rfl
    | some t =>
      obtain ⟨left, -, rfl⟩ := runPlan_some hplan
      have hblocks : compressPlan (planned s left) = none := by
        have hread := (memRead_planned left 0 (64 * blockCount s.len.toNat)).trans hbody
        rw [compressPlan_eq, planned_nblk, toNat_blockCount, compressBlocks_none_iff.mpr hread, Option.bind_none]
      exact congrArg (Option.map _) hblocks
  · rw [runPlan_none_iff.mpr hleft, Option.bind_none]

end Accesses

/-- A command whose access is in bounds completes, on a message that holds still and is as long as declared (R220). -/
theorem exec_completes {s : State} {i : Instr} (hstill : s.msgOld = []) (hextent : s.len.toNat ≤ s.msg.extent)
    (hin : ∀ S n, access i = some (S, n) → s.off.toNat + n ≤ spaceSize s S) : ∃ u, Effect s u ∧ exec i s = .next (finish u) := by
  have hreadable : ∀ S n, access i = some (S, n) → Readable s S s.off.toNat n :=
    fun S n ha => readable_of_inBounds hstill hextent (hin S n ha)
  cases i with
  | get32leMsg | get32leTail | get32leDig => exact getCommand_completes getU32Le_none_iff (hin _ _ rfl) (hreadable _ _ rfl)
  | get32beMsg | get32beTail | get32beDig => exact getCommand_completes getU32Be_none_iff (hin _ _ rfl) (hreadable _ _ rfl)
  | put32leTail | put32leDig | put64leTail | put64leDig | put64beTail | put64beDig =>
    simp only [exec_put32leTail, exec_put32leDig, exec_put64leTail, exec_put64leDig, exec_put64beTail, exec_put64beDig]
    exact putCommand_completes _ rfl rfl (hin _ _ rfl)
  | blockMsg | blockTail => exact blockCommand_completes (hin _ _ rfl) (hreadable _ _ rfl)
  | init => exact ⟨_, .hash _, exec_init s⟩
  | digest => exact ⟨_, .digest, exec_digest s⟩
  | plan =>
    have hleft : s.len.toNat - s.len.toNat % 64 + s.len.toNat % 64 ≤ s.len.toNat := by omega
    obtain ⟨t, hplan, he⟩ := exec_plan_of_readable (readable_of_inBounds hstill hextent hleft)
    exact ⟨t, .plan t hplan, he⟩
  | hash =>
    have hhash := runHash_of_message (memRead_msg_still hstill (by omega))
    exact ⟨_, .whole _ hhash, exec_hash_of_some hhash⟩

/-- Settles O41: what R105 says of a command that completes. -/
theorem goodCommandCompletes : Obligations.GoodCommandCompletes := by
  intro s i hstill hextent hin
  obtain ⟨u, hu, he⟩ := exec_completes hstill hextent hin
  exact ⟨_, he, hu.completed⟩

/-- On a message that holds still and is as long as declared a command completes or takes BOUNDS, so there is no MSG_FAULT (R224). -/
theorem exec_err_ne_msgFault {s t : State} {i : Instr} (hstill : s.msgOld = []) (hextent : s.len.toNat ≤ s.msg.extent)
    (herr : s.status.err = 0) (h : exec i s = .next t) : t.status.err ≠ errMsgFault := by
  by_cases hin : ∀ S n, access i = some (S, n) → inBounds s S n
  · obtain ⟨u, hu, he⟩ := exec_completes hstill hextent fun S n ha => of_decide_eq_true (hin S n ha)
    obtain ⟨hstatus, -⟩ := hu.completed
    cases he.symm.trans h
    rw [hstatus, herr]
    decide
  · push Not at hin
    obtain ⟨S, n, ha, hout⟩ := hin
    cases (exec_of_not_inBounds ha hout).symm.trans h
    rw [raiseFault_status]
    exact (by decide : errBounds ≠ errMsgFault)

/-- Settles O40: each read that meets a byte beyond the extent fails, and its command enters MSG_FAULT with its own write set. -/
theorem msgFault : Obligations.MsgFault := by
  intro s hstill
  refine ⟨fun i hi hin hshort => ?get, fun hin hshort => ?block, fun hleft hshort => ?plan, fun hshort => ?hash,
    fun hextent herr i t h => exec_err_ne_msgFault hstill hextent herr h⟩
  case get =>
    have hread := memRead_msg_of_short hstill (by omega) hshort
    have he : exec i s = .next (raiseMsgFault .val s) := by
      rcases hi with rfl | rfl
      · exact getCommand_of_unreadable getU32Le_none_iff hin hread
      · exact getCommand_of_unreadable getU32Be_none_iff hin hread
    exact ⟨_, he, raiseMsgFault_entered .val s, rfl, ⟨rfl, rfl⟩, fun _ => rfl, fun _ => rfl⟩
  case block =>
    have hread := memRead_msg_of_short hstill (by omega) hshort
    exact ⟨_, blockCommand_of_unreadable hin hread, raiseMsgFault_entered .hash s, rfl, ⟨rfl, rfl⟩, fun _ => rfl, fun _ => rfl⟩
  case plan =>
    have hsplit : s.len.toNat - lengthMod64 s.len.toNat + lengthMod64 s.len.toNat = s.len.toNat := Nat.sub_add_cancel (Nat.mod_le _ _)
    have hread := memRead_msg_of_short hstill (Nat.pos_of_ne_zero hleft) (hshort.trans_eq hsplit.symm)
    exact ⟨_, exec_plan_of_none (runPlan_none_iff.mpr hread), raiseMsgFault_entered .plan s, rfl, rfl, fun _ => rfl⟩
  case hash =>
    have hread := memRead_msg_of_short (off := 0) (n := s.len.toNat) hstill (by omega) (by omega)
    exact ⟨_, exec_hash_of_none (runHash_of_unreadable hread), raiseMsgFault_entered .whole s, rfl⟩

/-- From `s` to `t` nothing that the host can see changes but the operand registers. -/
def OperandsOnly (s t : State) : Prop := SameVisible { s with len := t.len, off := t.off, val := t.val } t

section StoppedEngine

variable {s : State}

/-- A stopped engine takes writes of the operand registers and no command (R102, R103). -/
theorem operandsOnly_hostWrite (h : Stopped s) (reg : Nat) (v : DWord) : OperandsOnly s (hostWrite reg v s) := by
  obtain ⟨hidle, herr⟩ := h
  rcases hostWrite_cases reg v s with ⟨hbusy, -⟩ | ⟨-, he | ⟨-, -, hzero, -⟩ | ⟨-, he | he | he⟩⟩
  · simp [hidle] at hbusy
  · rw [he]; constructor <;> rfl
  · exact absurd hzero herr
  all_goals rw [he]; constructor <;> rfl

/-- No act of the host but `Reset` gets further (R227). -/
theorem operandsOnly_hostAct (h : Stopped s) {a : HostAction} (hreset : a ≠ .reset) : OperandsOnly s (hostAct a s) := by
  cases a with
  | reset => exact absurd rfl hreset
  | write reg v => exact operandsOnly_hostWrite h reg v
  | read reg =>
    obtain ⟨v, d, he⟩ := hostRead_cases reg s
    rw [hostAct, he]
    constructor <;> rfl
  | storeMsg off b =>
    rw [hostAct, storeMsg]
    split <;> constructor <;> rfl
  | bindMsg | wait => constructor <;> rfl

/-- A stopped engine has no step of its own, so what happens before `Reset` is the host's acts (R105, R227). -/
theorem operandsOnly_step {t : State} (hstop : Stopped s) (hreset : ¬ ResetNext s) (h : step s = .next t) : OperandsOnly s t := by
  rcases step_cases s with ⟨a, rest, ha, -, hs⟩ | ⟨acts, -, -, hs⟩ | ⟨acts, -, hbusy, -⟩
  · cases hs.symm.trans h
    have hact := operandsOnly_hostAct (s := { s with inbox := rest }) hstop fun e => hreset ⟨rest, e ▸ ha⟩
    -- the act is taken off the inbox, which is no part of the host-visible state
    exact { hact with hash := hact.hash }
  · cases hs.symm.trans h
    constructor <;> rfl
  · simp [hstop.1] at hbusy

end StoppedEngine

/-- Settles O47: `STATUS`, the fault record and the results are not operand registers. -/
theorem stoppedUntilReset : Obligations.StoppedUntilReset := by
  intro s t hstop hreset h
  obtain ⟨hhash, -, -, -, htail, hdig, hnblk, hplan, hstatus, herrinfo⟩ := operandsOnly_step hstop hreset h
  exact ⟨by rwa [Stopped, hstatus], congrArg Status.err hstatus, herrinfo, hhash, htail, hdig, hnblk, hplan⟩

end Sys2Proof.Machine
end

section
/-! SUPPORT. What the host may see of a command in flight and do to it: reads while busy (R255), writes while busy (R254), a message that changes in the window (R256), and the two ways in which a command ends (R253). -/

namespace Sys2Proof.Machine

open Sys2Proof.Claims

section BytesOfTheMessage

variable {m : Message} {s : State} {off : Nat}

theorem byteAt_eq_some_iff {b : Byte} : m.byteAt off = some b ↔ off < m.extent ∧ b = Memory.read m.cells off := by
  simp [Message.byteAt, eq_comm]

theorem byteAt_eq_none_iff : m.byteAt off = none ↔ m.extent ≤ off := by
  simp [Message.byteAt]

/-- The bytes of a message after the owner has changed one of them (R256). -/
theorem byteAt_write (hin : off < m.extent) (b : Byte) (k : Nat) :
    Message.byteAt { m with cells := Memory.write m.cells off b } k = if k = off then some b else m.byteAt k := by
  unfold Message.byteAt
  by_cases hk : k = off
  · simp [hk, hin]
  · simp [hk]

/-- The byte the engine reads is that of the version picked for its offset (log 10). -/
theorem memByte_msg (s : State) (off : Nat) : memByte s .msg off = (msgVersion s off).byteAt off := rfl

/-- After one change of a message that held still, the version picked is the changed one; only with a command in flight it may be the one before
(R256). -/
theorem msgVersion_storeMsg (hstill : s.msgOld = []) (hin : off < s.msg.extent) (b : Byte) (k : Nat) :
    msgVersion (storeMsg off b s) k = { s.msg with cells := Memory.write s.msg.cells off b } ∨
      s.status.busy = true ∧ msgVersion (storeMsg off b s) k = s.msg := by
  have hversion := msgVersion_mem (storeMsg off b s) k
  rw [storeMsg, if_pos hin] at hversion ⊢
  cases hbusy : s.status.busy with
  | false => exact .inl (msgVersion_of_still (by simp [hbusy, hstill]) k)
  | true => simpa [hbusy, hstill] using hversion

/-- So the byte read at an offset is the one of the changed message, or with a command in flight the one of the message before. -/
theorem memByte_storeMsg (hstill : s.msgOld = []) (hin : off < s.msg.extent) (b : Byte) (k : Nat) :
    memByte (storeMsg off b s) .msg k = (if k = off then some b else memByte s .msg k) ∨
      s.status.busy = true ∧ memByte (storeMsg off b s) .msg k = memByte s .msg k := by
  simp only [memByte_msg, msgVersion_of_still hstill, ← byteAt_write hin]
  exact (msgVersion_storeMsg hstill hin b k).imp (congrArg (Message.byteAt · k)) (And.imp_right (congrArg (Message.byteAt · k)))

end BytesOfTheMessage

/-- Settles O44: at every other offset the two versions agree, and an idle engine has no version but the changed one. -/
theorem changedByteReadsOldOrNew : Obligations.ChangedByteReadsOldOrNew := by
  intro s off b hstill hin
  refine ⟨fun k hk => ?other, fun _ => ?busy, fun hidle => ?idle⟩
  case other =>
    rcases memByte_storeMsg hstill hin b k with h | ⟨-, h⟩
    · rwa [if_neg hk] at h
    · exact h
  case busy =>
    rcases memByte_storeMsg hstill hin b off with h | ⟨-, h⟩
    · rw [if_pos rfl] at h
      exact .inr h
    · exact .inl h
  case idle =>
    rcases memByte_storeMsg hstill hin b off with h | ⟨hbusy, -⟩
    · rwa [if_pos rfl] at h
    · simp [hidle] at hbusy

/-- Settles O43: the version picked is one the message has had, and it is asked at the offset itself. -/
theorem readsOldOrNewByte : Obligations.ReadsOldOrNewByte := fun s off =>
  ⟨fun _ h => ⟨_, msgVersion_mem s off, byteAt_eq_some_iff.mp h⟩, fun h => ⟨_, msgVersion_mem s off, byteAt_eq_none_iff.mp h⟩⟩

/-- A command that has been executed has completed, or a fault has been entered (R105, R226). -/
theorem exec_completed_or_faulted {s t : State} {i : Instr} (h : exec i s = .next t) :
    Completed s t ∨ ∃ code ≠ 0, FaultEntered code s t := by
  rcases exec_cases i s with ⟨u, hu, he⟩ | he | ⟨ws, he⟩ <;> cases he.symm.trans h
  · exact .inl hu.completed
  · exact .inr ⟨errBounds, by decide, (raiseFault_frame errBounds s).1⟩
  · exact .inr ⟨errMsgFault, by decide, raiseMsgFault_entered ws s⟩

/-- A step of a busy engine executes the command in `PEND`, or enters ILLEGAL_CMD for a word that is none (R105, R222). -/
theorem engineStep_completed_or_faulted {s t : State} (hbusy : s.status.busy = true) (h : engineStep s = .next t) :
    Completed s t ∨ ∃ code ≠ 0, FaultEntered code s t := by
  cases hd : decode s.pend with
  | ok i => exact exec_completed_or_faulted ((engineStep_of_decode hbusy hd).symm.trans h)
  | error e =>
    cases (engineStep_of_illegal hbusy hd).symm.trans h
    exact .inr ⟨errIllegalCmd, by decide, (raiseFault_frame errIllegalCmd s).1⟩

/-- Settles O51: completion keeps `ERR`, which is 0, and fault entry records a code that is not. -/
theorem commandEndsInOneOfTwoWays : Obligations.CommandEndsInOneOfTwoWays := by
  intro s t hturn hbusy herr h
  obtain ⟨acts, hacts⟩ : ∃ acts, s.inbox = [] ∧ acts = [] ∨ s.inbox = .wait :: acts :=
    hturn.elim (fun hnil => ⟨[], .inl ⟨hnil, rfl⟩⟩) fun ⟨rest, hwait⟩ => ⟨rest, .inr hwait⟩
  rw [step_eq_engineStep hacts] at h
  rcases engineStep_completed_or_faulted (s := { s with inbox := acts }) hbusy h with ⟨hstatus, -⟩ | ⟨code, hcode, hstatus, herrinfo, -⟩
  · rw [hstatus]
    exact ⟨rfl, .inl ⟨rfl, herr⟩⟩
  · rw [hstatus]
    exact ⟨rfl, .inr ⟨rfl, hcode, herrinfo⟩⟩

/-- A register that no command writes reads as it stands, busy or not (R104, R255). -/
theorem lastRead_hostRead_of_not_result {reg : Nat} (h : resultReg reg = false) (s : State) :
    (hostRead reg s).lastRead = some (reg, regValue s reg) := by
  rw [hostRead, h, Bool.and_false, if_neg Bool.false_ne_true]

/-- Settles O17: the five registers named are not among those a command may be half-way through writing. -/
theorem hostReadWhileBusy : Obligations.HostReadWhileBusy := by
  intro s _
  have hread : ∀ {reg}, resultReg reg = false → (hostRead reg s).lastRead = some (reg, regValue s reg) :=
    fun h => lastRead_hostRead_of_not_result h s
  exact ⟨hread rfl, hread rfl, hread rfl, hread rfl, hread rfl, fun reg => hostRead_cases reg s⟩

section Overrun

variable (s : State)

/-- A command ends with `OVR` set before it as it ends without, but for `OVR`. -/
def EndsButForOvr (command : State → Result) : Prop := ∃ t, command s = .next t ∧ command (overrun s) = .next (overrun t)

theorem inBounds_overrun (S : Space) (n : Nat) : inBounds (overrun s) S n = inBounds s S n := by
  cases S <;> rfl

theorem memByte_overrun (S : Space) (off : Nat) : memByte (overrun s) S off = memByte s S off :=
  memByte_congr rfl rfl rfl rfl rfl S off

theorem memRead_overrun (S : Space) (off n : Nat) : memRead (overrun s) S off n = memRead s S off n :=
  memRead_congr fun _ _ => memByte_overrun s S _

theorem getU32Le_overrun (S : Space) (off : Nat) : getU32Le (overrun s) S off = getU32Le s S off := by
  simp only [getU32Le, memRead_overrun]

theorem getU32Be_overrun (S : Space) (off : Nat) : getU32Be (overrun s) S off = getU32Be s S off := by
  simp only [getU32Be, memRead_overrun]

theorem memWrite_overrun (B : Buffer) (off : Nat) (bs : List Byte) : memWrite (overrun s) B off bs = overrun (memWrite s B off bs) := by
  cases B <;> rfl

theorem runPlan_overrun : runPlan (overrun s) = (runPlan s).map overrun := by
  unfold runPlan
  rw [memRead_overrun, overrun_len]
  cases memRead s .msg (s.len.toNat - lengthMod64 s.len.toNat) (lengthMod64 s.len.toNat) <;> rfl

theorem compressPlan_overrun : compressPlan (overrun s) = compressPlan s := by
  have hblocks : ∀ S off n k, compressBlocks (overrun s) S off n k = compressBlocks s S off n k :=
    fun S _ _ _ => compressBlocks_congr fun _ _ => memByte_overrun s S _
  simp only [compressPlan_eq, hblocks]
  rfl

theorem runHash_overrun : runHash (overrun s) = (runHash s).map overrun := by
  rw [runHash_eq, runHash_eq, runPlan_overrun]
  cases runPlan s with
  | none => rfl
  | some t =>
    simp only [Option.map_some, Option.bind_some, compressPlan_overrun]
    cases compressPlan t <;> rfl

theorem endsButForOvr_getCommand {get : State → Space → Nat → Option Word} {S : Space}
    (hget : ∀ off, get (overrun s) S off = get s S off) : EndsButForOvr s (getCommand get S) := by
  unfold EndsButForOvr getCommand
  rw [inBounds_overrun, overrun_off, hget]
  split
  · cases get s S s.off.toNat <;> exact ⟨_, rfl, rfl⟩
  · exact ⟨_, rfl, rfl⟩

theorem endsButForOvr_putCommand (n : Nat) (B : Buffer) {put : State → Buffer → Nat → State}
    (hput : ∀ off, put (overrun s) B off = overrun (put s B off)) : EndsButForOvr s (putCommand n B put) := by
  unfold EndsButForOvr putCommand
  rw [inBounds_overrun, overrun_off, hput]
  split <;> exact ⟨_, rfl, rfl⟩

theorem endsButForOvr_blockCommand (S : Space) : EndsButForOvr s (blockCommand S) := by
  unfold EndsButForOvr blockCommand
  rw [inBounds_overrun, overrun_off, memRead_overrun]
  split
  · cases memRead s S s.off.toNat 64 <;> exact ⟨_, rfl, rfl⟩
  · exact ⟨_, rfl, rfl⟩

theorem endsButForOvr_execPlan : EndsButForOvr s execPlan := by
  unfold EndsButForOvr execPlan
  rw [runPlan_overrun]
  cases runPlan s <;> exact ⟨_, rfl, rfl⟩

theorem endsButForOvr_execHash : EndsButForOvr s execHash := by
  unfold EndsButForOvr execHash
  rw [runHash_overrun]
  cases runHash s <;> exact ⟨_, rfl, rfl⟩

/-- No command looks at `OVR` or clears it (R34, R254). -/
theorem endsButForOvr_exec (i : Instr) : EndsButForOvr s (exec i) := by
  cases i with
  | get32leMsg | get32leTail | get32leDig => exact endsButForOvr_getCommand s (getU32Le_overrun s _)
  | get32beMsg | get32beTail | get32beDig => exact endsButForOvr_getCommand s (getU32Be_overrun s _)
  | put32leTail | put32leDig | put64leTail | put64leDig | put64beTail | put64beDig =>
    simp only [EndsButForOvr, exec_put32leTail, exec_put32leDig, exec_put64leTail, exec_put64leDig, exec_put64beTail, exec_put64beDig]
    exact endsButForOvr_putCommand s _ _ fun off => memWrite_overrun s _ off _
  | blockMsg | blockTail => exact endsButForOvr_blockCommand s _
  | init | digest => exact ⟨_, rfl, rfl⟩
  | plan => exact endsButForOvr_execPlan s
  | hash => exact endsButForOvr_execHash s

end Overrun

/-- A write while busy is dropped and recorded, or names no register that can be written (R46, R254). -/
theorem hostWrite_of_busy {s : State} (hbusy : s.status.busy = true) (reg : Nat) (v : DWord) :
    ((reg = 0x00 ∨ reg = 0x03 ∨ reg = 0x04 ∨ reg = 0x05) ∧ hostWrite reg v s = overrun s) ∨
      (¬ (reg = 0x00 ∨ reg = 0x03 ∨ reg = 0x04 ∨ reg = 0x05) ∧ hostWrite reg v s = s) := by
  rcases hostWrite_cases reg v s with ⟨-, hreg, h⟩ | ⟨hno, h | ⟨-, hidle, -⟩ | ⟨hidle, -⟩⟩
  · exact .inl ⟨hreg, h⟩
  · exact .inr ⟨fun hreg => hno ⟨hbusy, hreg⟩, h⟩
  all_goals simp [hbusy] at hidle

/-- Settles O54: what a write while busy may change is `OVR`, and no command looks at it. -/
theorem busyWriteDoesNotDisturb : Obligations.BusyWriteDoesNotDisturb := by
  intro s reg v i hbusy
  obtain ⟨t, ht, hovr⟩ := endsButForOvr_exec s i
  rcases hostWrite_of_busy hbusy reg v with ⟨-, h⟩ | ⟨hreg, h⟩ <;> rw [h]
  · exact ⟨fun _ => rfl, t, overrun t, ht, hovr, by constructor <;> rfl, rfl, rfl, rfl⟩
  · exact ⟨fun hw => absurd hw hreg, t, t, ht, ht, by constructor <;> rfl, rfl, rfl, rfl⟩

end Sys2Proof.Machine
end
